-- ==== Sys2Proof/Word.lean ====
section
/-! DEFINITION. The word types of Potato-8 CORE.
Every quantity is unsigned; bits are numbered from 0, the least significant (R5, 00_scope.md). -/

namespace Sys2Proof

/-- A general register, a timer, a memory cell, the immediate `kk`: `XLEN` = 8 bits (R4, R10). -/
abbrev Byte := BitVec 8

/-- `I`, `pc`, a stack cell, `ir`, an instruction word: 16 bits (R4, R12, R13, R14, R60). -/
abbrev Word := BitVec 16

/-- The address immediate `nnn`: 12 bits (R61). -/
abbrev Addr12 := BitVec 12

/-- A 4-bit field: the register numbers `x` and `y`, the row count `n`, the family `op`, and the stack pointer (R61, R15). -/
abbrev Nibble := BitVec 4

/-- The framebuffer, a grid of 32 rows of 64 one-bit cells, row-major: cell `FB[k]` is bit `k mod 64` of row `k div 64`, so pixel
(px, py) is cell `py*64 + px` (R18, R160; log 5). -/
abbrev Frame := Vector (BitVec 64) 32

end Sys2Proof
end

