-- ==== Sys2Proof/Machine/Flags.lean ====
section
/-! DEFINITION. Every value an instruction writes into VF as a flag (the table of R11, 10_state.md), from the operands before the instruction. -/

namespace Sys2Proof.Machine

/-- A flag as the byte VF holds: 1 or 0 (R11). -/
def flagByte (b : Bool) : Byte := if b then 1 else 0

/-- 8xy4: "1 if sum > 255 else 0" (R126). -/
def carryFlag (vx vy : Byte) : Byte := flagByte (decide (vx.toNat + vy.toNat > 255))

/-- 8xy5: "0 if V[y] > V[x] else 1" (R127). -/
def notBorrowFlag (vx vy : Byte) : Byte := flagByte (!decide (vy.toNat > vx.toNat))

/-- 8xy7: "1 if V[y] > V[x] else 0", strict: equal operands give 0 (R129, conflict C2). -/
def greaterFlag (vx vy : Byte) : Byte := flagByte (decide (vy.toNat > vx.toNat))

/-- 8xy6: `V[x][0]`, the bit shifted out (R128). -/
def lowBitFlag (vx : Byte) : Byte := flagByte (vx.getLsbD 0)

/-- 8xyE: `V[x][7]`, the bit shifted out (R130). -/
def highBitFlag (vx : Byte) : Byte := flagByte (vx.getLsbD 7)

/-- Dxyn: 1 if any pixel went from 1 to 0 (R162). -/
def collisionFlag (collision : Bool) : Byte := flagByte collision

end Sys2Proof.Machine
end

