-- ==== Sys2Proof/Config.lean ====
section
/-! DEFINITION. What the block fixes once, and its one free value.
The numeric parameters are those of R4 (00_scope.md), each under its own name with the value the spec gives it, so that an
audit of a literal (decision D23) changes one place; the widths are in Word.lean and in the types of State. -/

namespace Sys2Proof.Config

/-- `MEM_SIZE`: byte cells of the Address Space (R4, R40). -/
@[simp] abbrev memSize : Nat := 4096

/-- `LOAD_OFFSET`: where a program is loaded, and the reset value of `pc` (R4, R25, R233). -/
@[simp] abbrev loadOffset : Nat := 512

/-- `MAX_PROGRAM`: the longest loadable program in bytes (R4, R233). -/
@[simp] abbrev maxProgram : Nat := memSize - loadOffset

/-- `I_MOD`: the modulus of Fx1E (R4, R141). -/
@[simp] abbrev iMod : Nat := 4096

/-- `BJUMP_MOD`: the modulus of the Bnnn target (R4, R107). -/
@[simp] abbrev bjumpMod : Nat := 256

/-- `FONT_STRIDE`: the multiplier of Fx29 (R4, R142). -/
@[simp] abbrev fontStride : Nat := 5

/-- `SP_MAX`: the largest stack pointer (R4, R15). -/
@[simp] abbrev spMax : Nat := 15

/-- `NKEY`: the number of key flags (R4, R19). -/
@[simp] abbrev nKey : Nat := 16

/-- `FB_W`: columns of the framebuffer (R4, R160). -/
@[simp] abbrev fbWidth : Nat := 64

/-- `FB_H`: rows of the framebuffer (R4, R160). -/
@[simp] abbrev fbHeight : Nat := 32

/-- `SPRITE_W`: pixels of one sprite row (R4, R160). -/
@[simp] abbrev spriteWidth : Nat := 8

/-- `ILEN` in bytes: what `pc` advances by, and what a skip adds (R4, R60, R83). -/
@[simp] abbrev instrBytes : Nat := 2

/-- FREE VALUE. The random bytes the outside supplies, the n-th to the n-th cycle that `step` runs.
It has no body: "no distribution, period or independence is promised: a model treats `rand` as a free value of every cycle" (R131, D19; log 3). -/
opaque randByte : Nat → Byte

end Sys2Proof.Config
end

