-- ==== Sys2Proof/Syntax.lean ====
section
/-! DEFINITION. The 34 instructions of the opcode map (R65, 30_encoding.md), one constructor a row of spec/opcode_table.json.
An operand is the field of R61 at its own width, so every term is an instruction the hardware has: "all 16 values are legal in
every instruction that has the field" and every immediate is legal (R63). -/

namespace Sys2Proof

/-- An instruction; `x` and `y` are register numbers, `kk` and `nnn` immediates, `n` the row count (R61, R62). -/
inductive Instr where
  /-- 00E0, clear the framebuffer (R161). -/
  | cls
  /-- 00EE, return from a subroutine (R100). -/
  | ret
  /-- 1nnn, jump (R101). -/
  | jp (nnn : Addr12)
  /-- 2nnn, call (R102). -/
  | call (nnn : Addr12)
  /-- 3xkk, skip if `V[x] = kk` (R103). -/
  | seImm (x : Nibble) (kk : Byte)
  /-- 4xkk, skip if `V[x] ≠ kk` (R104). -/
  | sneImm (x : Nibble) (kk : Byte)
  /-- 5xy0, skip if `V[x] = V[y]` (R105). -/
  | seReg (x y : Nibble)
  /-- 9xy0, skip if `V[x] ≠ V[y]` (R106). -/
  | sneReg (x y : Nibble)
  /-- 6xkk, load immediate (R120). -/
  | ldImm (x : Nibble) (kk : Byte)
  /-- 7xkk, add immediate without flag (R121). -/
  | addImm (x : Nibble) (kk : Byte)
  /-- 8xy0, move (R122). -/
  | ldReg (x y : Nibble)
  /-- 8xy1, bitwise or (R123). -/
  | orReg (x y : Nibble)
  /-- 8xy2, bitwise and (R124). -/
  | andReg (x y : Nibble)
  /-- 8xy3, bitwise exclusive or (R125). -/
  | xorReg (x y : Nibble)
  /-- 8xy4, add with carry flag (R126). -/
  | addReg (x y : Nibble)
  /-- 8xy5, `V[x] - V[y]` with not-borrow flag (R127). -/
  | subReg (x y : Nibble)
  /-- 8xy6, shift right by one; `y` is in the word and ignored (R128). -/
  | shr (x y : Nibble)
  /-- 8xy7, `V[y] - V[x]` with flag `V[y] > V[x]` (R129). -/
  | subn (x y : Nibble)
  /-- 8xyE, shift left by one; `y` is in the word and ignored (R130). -/
  | shl (x y : Nibble)
  /-- Annn, load `I` (R140). -/
  | ldI (nnn : Addr12)
  /-- Bnnn, computed jump, modulo 256 (R107). -/
  | jpV0 (nnn : Addr12)
  /-- Cxkk, random byte and mask (R131). -/
  | rnd (x : Nibble) (kk : Byte)
  /-- Dxyn, draw a sprite (R162). -/
  | drw (x y n : Nibble)
  /-- Ex9E, skip if key `V[x]` is held (R180). -/
  | skp (x : Nibble)
  /-- ExA1, skip if key `V[x]` is not held (R181). -/
  | sknp (x : Nibble)
  /-- Fx07, read the delay timer (R183). -/
  | ldVxDT (x : Nibble)
  /-- Fx15, write the delay timer (R184). -/
  | ldDTVx (x : Nibble)
  /-- Fx18, write the sound timer (R185). -/
  | ldSTVx (x : Nibble)
  /-- Fx1E, add to `I` modulo 4096 (R141). -/
  | addI (x : Nibble)
  /-- Fx29, font address (R142). -/
  | ldF (x : Nibble)
  /-- Fx33, store decimal digits (R143). -/
  | ldB (x : Nibble)
  /-- Fx55, store `V[0]..V[x]` (R144). -/
  | ldMemVx (x : Nibble)
  /-- Fx65, load `V[0]..V[x]` (R145). -/
  | ldVxMem (x : Nibble)
  /-- Fx0A, wait for a held key (R182). -/
  | ldVxK (x : Nibble)
  deriving DecidableEq, Repr

end Sys2Proof
end

