-- ==== Sys2Proof/WellFormed.lean ====
section
/-! DEFINITION. What is well-formed and what is not.
A term of `Instr` is well-formed by its type (R63: every value of every field is legal), so the checks here are on what comes
from outside: an instruction word, against the opcode map; the operands of the host operations LOAD and SET_KEY. -/

namespace Sys2Proof

/-- One row of the opcode map: a word `w` is the row's instruction iff `w AND mask = bits` (R65). -/
structure OpcodeRow where
  /-- The spec's primary name of the instruction (R68). -/
  pattern : String
  /-- The column "match" of R65. -/
  bits : Word
  /-- The column "mask" of R65. -/
  mask : Word
  deriving DecidableEq, Repr

/-- The word has the row's fixed bits (R65). -/
def OpcodeRow.accepts (r : OpcodeRow) (w : Word) : Bool := w &&& r.mask == r.bits

/-- Rows 00E0 to 9xy0 of R65, in the source's order. -/
def flowRows : List OpcodeRow :=
  [ ⟨"00E0", 0x00E0#16, 0xFFFF#16⟩
  , ⟨"00EE", 0x00EE#16, 0xFFFF#16⟩
  , ⟨"1nnn", 0x1000#16, 0xF000#16⟩
  , ⟨"2nnn", 0x2000#16, 0xF000#16⟩
  , ⟨"3xkk", 0x3000#16, 0xF000#16⟩
  , ⟨"4xkk", 0x4000#16, 0xF000#16⟩
  , ⟨"5xy0", 0x5000#16, 0xF00F#16⟩
  , ⟨"9xy0", 0x9000#16, 0xF00F#16⟩ ]

/-- Rows 6xkk to 8xyE of R65, in the source's order. -/
def aluRows : List OpcodeRow :=
  [ ⟨"6xkk", 0x6000#16, 0xF000#16⟩
  , ⟨"7xkk", 0x7000#16, 0xF000#16⟩
  , ⟨"8xy0", 0x8000#16, 0xF00F#16⟩
  , ⟨"8xy1", 0x8001#16, 0xF00F#16⟩
  , ⟨"8xy2", 0x8002#16, 0xF00F#16⟩
  , ⟨"8xy3", 0x8003#16, 0xF00F#16⟩
  , ⟨"8xy4", 0x8004#16, 0xF00F#16⟩
  , ⟨"8xy5", 0x8005#16, 0xF00F#16⟩
  , ⟨"8xy6", 0x8006#16, 0xF00F#16⟩
  , ⟨"8xy7", 0x8007#16, 0xF00F#16⟩
  , ⟨"8xyE", 0x800E#16, 0xF00F#16⟩ ]

/-- Rows Annn to Dxyn of R65, in the source's order. -/
def indexRows : List OpcodeRow :=
  [ ⟨"Annn", 0xA000#16, 0xF000#16⟩
  , ⟨"Bnnn", 0xB000#16, 0xF000#16⟩
  , ⟨"Cxkk", 0xC000#16, 0xF000#16⟩
  , ⟨"Dxyn", 0xD000#16, 0xF000#16⟩ ]

/-- Rows Ex9E to Fx0A of R65, in the source's order. -/
def systemRows : List OpcodeRow :=
  [ ⟨"Ex9E", 0xE09E#16, 0xF0FF#16⟩
  , ⟨"ExA1", 0xE0A1#16, 0xF0FF#16⟩
  , ⟨"Fx07", 0xF007#16, 0xF0FF#16⟩
  , ⟨"Fx15", 0xF015#16, 0xF0FF#16⟩
  , ⟨"Fx18", 0xF018#16, 0xF0FF#16⟩
  , ⟨"Fx1E", 0xF01E#16, 0xF0FF#16⟩
  , ⟨"Fx29", 0xF029#16, 0xF0FF#16⟩
  , ⟨"Fx33", 0xF033#16, 0xF0FF#16⟩
  , ⟨"Fx55", 0xF055#16, 0xF0FF#16⟩
  , ⟨"Fx65", 0xF065#16, 0xF0FF#16⟩
  , ⟨"Fx0A", 0xF00A#16, 0xF0FF#16⟩ ]

/-- The complete opcode map: 34 rows (R65). -/
def opcodeMap : List OpcodeRow := flowRows ++ aluRows ++ indexRows ++ systemRows

/-- CHECK. The word is one of the 43954 legal words: it matches a row (R64, R65); every other word is illegal (R66). -/
def wordLegal (w : Word) : Bool := opcodeMap.any (fun r => r.accepts w)

/-- CHECK. The byte sequence is short enough for LOAD: at most `MAX_PROGRAM` bytes (R233). -/
def programFits (bytes : List Byte) : Bool := decide (bytes.length ≤ Config.maxProgram)

/-- CHECK. The index names a key flag: SET_KEY requires `0 ≤ index ≤ 15` (R216). -/
def keyIndexOk (index : Nat) : Bool := decide (index < Config.nKey)

/-- The row of an instruction: its entry in the column "pattern" of R65. -/
def Instr.row : Instr → OpcodeRow
  | .cls => ⟨"00E0", 0x00E0#16, 0xFFFF#16⟩
  | .ret => ⟨"00EE", 0x00EE#16, 0xFFFF#16⟩
  | .jp _ => ⟨"1nnn", 0x1000#16, 0xF000#16⟩
  | .call _ => ⟨"2nnn", 0x2000#16, 0xF000#16⟩
  | .seImm _ _ => ⟨"3xkk", 0x3000#16, 0xF000#16⟩
  | .sneImm _ _ => ⟨"4xkk", 0x4000#16, 0xF000#16⟩
  | .seReg _ _ => ⟨"5xy0", 0x5000#16, 0xF00F#16⟩
  | .sneReg _ _ => ⟨"9xy0", 0x9000#16, 0xF00F#16⟩
  | .ldImm _ _ => ⟨"6xkk", 0x6000#16, 0xF000#16⟩
  | .addImm _ _ => ⟨"7xkk", 0x7000#16, 0xF000#16⟩
  | .ldReg _ _ => ⟨"8xy0", 0x8000#16, 0xF00F#16⟩
  | .orReg _ _ => ⟨"8xy1", 0x8001#16, 0xF00F#16⟩
  | .andReg _ _ => ⟨"8xy2", 0x8002#16, 0xF00F#16⟩
  | .xorReg _ _ => ⟨"8xy3", 0x8003#16, 0xF00F#16⟩
  | .addReg _ _ => ⟨"8xy4", 0x8004#16, 0xF00F#16⟩
  | .subReg _ _ => ⟨"8xy5", 0x8005#16, 0xF00F#16⟩
  | .shr _ _ => ⟨"8xy6", 0x8006#16, 0xF00F#16⟩
  | .subn _ _ => ⟨"8xy7", 0x8007#16, 0xF00F#16⟩
  | .shl _ _ => ⟨"8xyE", 0x800E#16, 0xF00F#16⟩
  | .ldI _ => ⟨"Annn", 0xA000#16, 0xF000#16⟩
  | .jpV0 _ => ⟨"Bnnn", 0xB000#16, 0xF000#16⟩
  | .rnd _ _ => ⟨"Cxkk", 0xC000#16, 0xF000#16⟩
  | .drw _ _ _ => ⟨"Dxyn", 0xD000#16, 0xF000#16⟩
  | .skp _ => ⟨"Ex9E", 0xE09E#16, 0xF0FF#16⟩
  | .sknp _ => ⟨"ExA1", 0xE0A1#16, 0xF0FF#16⟩
  | .ldVxDT _ => ⟨"Fx07", 0xF007#16, 0xF0FF#16⟩
  | .ldDTVx _ => ⟨"Fx15", 0xF015#16, 0xF0FF#16⟩
  | .ldSTVx _ => ⟨"Fx18", 0xF018#16, 0xF0FF#16⟩
  | .addI _ => ⟨"Fx1E", 0xF01E#16, 0xF0FF#16⟩
  | .ldF _ => ⟨"Fx29", 0xF029#16, 0xF0FF#16⟩
  | .ldB _ => ⟨"Fx33", 0xF033#16, 0xF0FF#16⟩
  | .ldMemVx _ => ⟨"Fx55", 0xF055#16, 0xF0FF#16⟩
  | .ldVxMem _ => ⟨"Fx65", 0xF065#16, 0xF0FF#16⟩
  | .ldVxK _ => ⟨"Fx0A", 0xF00A#16, 0xF0FF#16⟩

end Sys2Proof
end

