-- ==== Sys2Proof/Decode.lean ====
section
/-! DEFINITION. The decoder, total on any bytes and rejecting by name, and after it the encoder.
Decode is "a function of the 16-bit word alone" (R64); the fields are those of R61, the byte order that of R43. -/

namespace Sys2Proof

/-- Why bytes are not an instruction: the family whose patterns the word misses (R66), or too few bytes for a word (R60). -/
inductive DecodeReject where
  /-- A 0nnn word other than 00E0 and 00EE. -/
  | family0
  /-- 5xyN with N ≠ 0. -/
  | family5
  /-- 8xyN with N in 8..D or F. -/
  | family8
  /-- 9xyN with N ≠ 0. -/
  | family9
  /-- Exkk with kk neither 9E nor A1. -/
  | familyE
  /-- Fxkk with kk none of 07, 0A, 15, 18, 1E, 29, 33, 55, 65. -/
  | familyF
  /-- Fewer than two bytes. -/
  | shortInput
  deriving DecidableEq, Repr

/-- `op`, bits 15 to 12 (R61). -/
def fieldOp (w : Word) : Nibble := w.extractLsb' 12 4

/-- `x`, bits 11 to 8 (R61). -/
def fieldX (w : Word) : Nibble := w.extractLsb' 8 4

/-- `y`, bits 7 to 4 (R61). -/
def fieldY (w : Word) : Nibble := w.extractLsb' 4 4

/-- `n`, bits 3 to 0 (R61). -/
def fieldN (w : Word) : Nibble := w.extractLsb' 0 4

/-- `kk`, bits 7 to 0 (R61). -/
def fieldKK (w : Word) : Byte := w.extractLsb' 0 8

/-- `nnn`, bits 11 to 0 (R61). -/
def fieldNNN (w : Word) : Addr12 := w.extractLsb' 0 12

/-- Family 0 matches all 16 bits (R64). -/
def decodeFamily0 (w : Word) : Except DecodeReject Instr :=
  if w = 0x00E0 then .ok .cls
  else if w = 0x00EE then .ok .ret
  else .error .family0

/-- Family 8 branches on the low nibble (R64). -/
def decodeFamily8 (x y n : Nibble) : Except DecodeReject Instr :=
  match n.toNat with
  | 0x0 => .ok (.ldReg x y)
  | 0x1 => .ok (.orReg x y)
  | 0x2 => .ok (.andReg x y)
  | 0x3 => .ok (.xorReg x y)
  | 0x4 => .ok (.addReg x y)
  | 0x5 => .ok (.subReg x y)
  | 0x6 => .ok (.shr x y)
  | 0x7 => .ok (.subn x y)
  | 0xE => .ok (.shl x y)
  | _   => .error .family8

/-- Family E branches on the low byte (R64). -/
def decodeFamilyE (x : Nibble) (kk : Byte) : Except DecodeReject Instr :=
  match kk.toNat with
  | 0x9E => .ok (.skp x)
  | 0xA1 => .ok (.sknp x)
  | _    => .error .familyE

/-- Family F branches on the low byte (R64). -/
def decodeFamilyF (x : Nibble) (kk : Byte) : Except DecodeReject Instr :=
  match kk.toNat with
  | 0x07 => .ok (.ldVxDT x)
  | 0x0A => .ok (.ldVxK x)
  | 0x15 => .ok (.ldDTVx x)
  | 0x18 => .ok (.ldSTVx x)
  | 0x1E => .ok (.addI x)
  | 0x29 => .ok (.ldF x)
  | 0x33 => .ok (.ldB x)
  | 0x55 => .ok (.ldMemVx x)
  | 0x65 => .ok (.ldVxMem x)
  | _    => .error .familyF

/-- The instruction a word is, or the family that rejects it: first `op`, then what the family branches on (R64).
Families 5 and 9 need a low nibble of 0 (decision D14). -/
def decodeWord (w : Word) : Except DecodeReject Instr :=
  let x := fieldX w
  let y := fieldY w
  let n := fieldN w
  let kk := fieldKK w
  let nnn := fieldNNN w
  match (fieldOp w).toNat with
  | 0x0 => decodeFamily0 w
  | 0x1 => .ok (.jp nnn)
  | 0x2 => .ok (.call nnn)
  | 0x3 => .ok (.seImm x kk)
  | 0x4 => .ok (.sneImm x kk)
  | 0x5 => if n = 0 then .ok (.seReg x y) else .error .family5
  | 0x6 => .ok (.ldImm x kk)
  | 0x7 => .ok (.addImm x kk)
  | 0x8 => decodeFamily8 x y n
  | 0x9 => if n = 0 then .ok (.sneReg x y) else .error .family9
  | 0xA => .ok (.ldI nnn)
  | 0xB => .ok (.jpV0 nnn)
  | 0xC => .ok (.rnd x kk)
  | 0xD => .ok (.drw x y n)
  | 0xE => decodeFamilyE x kk
  | _   => decodeFamilyF x kk

/-- The word of two consecutive bytes: the byte at the lower address is bits 15 to 8 (R43). -/
def wordOfBytes (hi lo : Byte) : Word := hi ++ lo

/-- The byte of a word at the lower address: bits 15 to 8 (R43). -/
def highByte (w : Word) : Byte := w.extractLsb' 8 8

/-- The byte of a word at the higher address: bits 7 to 0 (R43). -/
def lowByte (w : Word) : Byte := w.extractLsb' 0 8

/-- The instruction at the head of a byte sequence and the bytes after it; every instruction is two bytes (R60). -/
def decode : List Byte → Except DecodeReject (Instr × List Byte)
  | hi :: lo :: rest => (decodeWord (wordOfBytes hi lo)).map (fun i => (i, rest))
  | _ => .error .shortInput

/-- The decoder's answer on the instruction whose bits, numbered as spec/opcode_table.json numbers them, are `w`.
One row is one 16-bit word, stored high byte first (R60, R43). -/
def decodeTableWord (nbits w : Nat) : Option Instr :=
  let word : Word := BitVec.ofNat 16 (w % 2 ^ nbits)
  match decode [highByte word, lowByte word] with
  | .ok (i, _) => some i
  | .error _ => none

/-- `x kk` in bits 11 to 0 (R61). -/
def joinXK (x : Nibble) (kk : Byte) : Addr12 := x ++ kk

/-- `y n` in bits 7 to 0 (R61). -/
def joinYN (y n : Nibble) : Byte := y ++ n

/-- Format A: `op nnn` (R62). -/
def encodeA (op : Nibble) (nnn : Addr12) : Word := op ++ nnn

/-- Format XK, and format XS with its sub-opcode as `kk`: `op x kk` (R62). -/
def encodeXK (op x : Nibble) (kk : Byte) : Word := encodeA op (joinXK x kk)

/-- Format XYN, and format XY with its sub-opcode as `n`: `op x y n` (R62). -/
def encodeXYN (op x y n : Nibble) : Word := encodeXK op x (joinYN y n)

/-- The word of an instruction: its row of R65 in its format of R62. -/
def encode : Instr → Word
  | .cls => 0x00E0
  | .ret => 0x00EE
  | .jp nnn => encodeA 0x1 nnn
  | .call nnn => encodeA 0x2 nnn
  | .seImm x kk => encodeXK 0x3 x kk
  | .sneImm x kk => encodeXK 0x4 x kk
  | .seReg x y => encodeXYN 0x5 x y 0x0
  | .sneReg x y => encodeXYN 0x9 x y 0x0
  | .ldImm x kk => encodeXK 0x6 x kk
  | .addImm x kk => encodeXK 0x7 x kk
  | .ldReg x y => encodeXYN 0x8 x y 0x0
  | .orReg x y => encodeXYN 0x8 x y 0x1
  | .andReg x y => encodeXYN 0x8 x y 0x2
  | .xorReg x y => encodeXYN 0x8 x y 0x3
  | .addReg x y => encodeXYN 0x8 x y 0x4
  | .subReg x y => encodeXYN 0x8 x y 0x5
  | .shr x y => encodeXYN 0x8 x y 0x6
  | .subn x y => encodeXYN 0x8 x y 0x7
  | .shl x y => encodeXYN 0x8 x y 0xE
  | .ldI nnn => encodeA 0xA nnn
  | .jpV0 nnn => encodeA 0xB nnn
  | .rnd x kk => encodeXK 0xC x kk
  | .drw x y n => encodeXYN 0xD x y n
  | .skp x => encodeXK 0xE x 0x9E
  | .sknp x => encodeXK 0xE x 0xA1
  | .ldVxDT x => encodeXK 0xF x 0x07
  | .ldDTVx x => encodeXK 0xF x 0x15
  | .ldSTVx x => encodeXK 0xF x 0x18
  | .addI x => encodeXK 0xF x 0x1E
  | .ldF x => encodeXK 0xF x 0x29
  | .ldB x => encodeXK 0xF x 0x33
  | .ldMemVx x => encodeXK 0xF x 0x55
  | .ldVxMem x => encodeXK 0xF x 0x65
  | .ldVxK x => encodeXK 0xF x 0x0A

/-- The two bytes of an instruction as they stand in memory (R43). -/
def encodeBytes (i : Instr) : List Byte := [highByte (encode i), lowByte (encode i)]

end Sys2Proof
end

