-- ==== Sys2Proof/Machine/State.lean ====
section
/-! DEFINITION. The state of the block as plain data, what can stop a run, and the state after reset (10_state.md). -/

namespace Sys2Proof.Machine

/-- The six faults of the spec (R200).
The machine's own `step` and `exec` never end in `Outcome.fault`: a fault is taken as R207 describes, in a next state that sets
`halted` and whose `diag` names it (log 1).
Only `Sys2Proof.Safety.strictStep`, the reading of R211 under which no claim passes a fault, ends in one; that is safe. -/
inductive Fault where
  /-- Code 1: the fetched word matches no row of the opcode map (R201). Raised by the decode step of a cycle. Safe in `strictStep`. -/
  | decodeFailure
  /-- Code 2: `pc > 4094` at the fetch (R202). Raised by the fetch step of a cycle. Safe in `strictStep`. -/
  | fetchOutOfBounds
  /-- Code 3: the last address of the footprint is above 4095 (R203). Raised by Dxyn, Fx33, Fx55, Fx65. Safe in `strictStep`. -/
  | dataOutOfBounds
  /-- Code 4: `sp = 15` on entry (R204). Raised by 2nnn. Safe in `strictStep`. -/
  | stackOverflow
  /-- Code 5: `sp = 0` on entry (R205). Raised by 00EE. Safe in `strictStep`. -/
  | stackUnderflow
  /-- Code 6: `V[x] > 15` (R206). Raised by Ex9E and ExA1. Safe in `strictStep`. -/
  | keyIndexOutOfRange
  deriving DecidableEq, Repr

/-- Why the model declines something. No instruction's meaning ends in one; the host operations of Machine/Environment.lean do. -/
inductive Refusal where
  /-- An instruction without a meaning in this model. Raised by an arm of `exec`; no arm is left that does. Safe. -/
  | notModelled (mnemonic : String)
  /-- LOAD of more than 3584 bytes: "the operation is not performed" (R233, D18). Raised by `perform`. Safe. -/
  | loadTooLong
  /-- SET_KEY with an index above 15: "not performed at all and is outside the specification" (R216, D21). Raised by `perform`. Safe. -/
  | keyIndexTooLarge
  /-- Any operation but RESET and LOAD before the first reset (R26, R231, D17). Raised by `performFromPower`. Safe. -/
  | beforeFirstReset
  deriving DecidableEq, Repr

/-- The diagnostic record of a fault, `diag = (code, addr, word, info)` (R200); the code is `faultCode` of the fault. -/
structure Diag where
  /-- Which fault. -/
  fault : Fault
  /-- `pc` when the cycle began. -/
  addr : Word
  /-- `ir` after the cycle. -/
  word : Word
  /-- The column "info recorded" of R200, 0 where none; a plain number, since a footprint's last address is computed exactly (R146). -/
  info : Nat
  deriving DecidableEq, Repr

/-- The Address Space as (address, byte) pairs in canonical form: addresses strictly rising and below 4096, no byte 0, because a
cell that is not listed holds 0, its reset value (R25, R40; log 4). -/
abbrev Memory := List Host.Cell

/-- Everything the spec gives the machine (10_state.md §1), and below it the input and the outputs of one RUN_CYCLE. -/
@[ext]
structure State where
  /-- General registers V0..VF; `V[15]` is VF, the only flag (R10, R11). -/
  V : Vector Byte 16
  /-- Address register (R12). -/
  I : Word
  /-- Program counter (R13). -/
  pc : Word
  /-- Call stack, not in memory (R14). -/
  stack : Vector Word 16
  /-- Stack pointer (R15). -/
  sp : Nibble
  /-- Delay timer (R16). -/
  DT : Byte
  /-- Sound timer (R17). -/
  ST : Byte
  /-- Framebuffer (R18). -/
  FB : Frame
  /-- Key-state table (R19). -/
  key : Vector Bool 16
  /-- Machine-halted flag (R20). -/
  halted : Bool
  /-- Frame-ready-to-draw flag (R21). -/
  drawReady : Bool
  /-- The instruction word fetched last (R22). -/
  ir : Word
  /-- The Address Space (R40). -/
  mem : Memory
  /-- MODEL'S OWN: the argument of the RUN_CYCLE under way (R80, R131; log 3). -/
  rand : Byte
  /-- MODEL'S OWN: how many random bytes `step` has drawn (log 3). -/
  randIdx : Nat
  /-- MODEL'S OWN: the output `beep` of the last cycle (R80, R86; log 2). -/
  beep : Bool
  /-- MODEL'S OWN: the output `diag` of the last cycle (R80, R200; log 2). -/
  diag : Option Diag
  deriving DecidableEq, Repr

/-- The state after RESET: every value is the table of R25; the four model's own fields are named in logs 2 and 3. -/
def State.reset : State where
  V := Vector.replicate 16 0
  I := 0
  pc := BitVec.ofNat 16 Config.loadOffset
  stack := Vector.replicate 16 0
  sp := 0
  DT := 0
  ST := 0
  FB := Vector.replicate 32 0
  key := Vector.replicate 16 false
  halted := false
  drawReady := false
  ir := 0
  mem := []
  rand := 0
  randIdx := 0
  beep := false
  diag := none

end Sys2Proof.Machine
end

