-- ==== Sys2Proof/Machine/Ops.lean ====
section
/-! DEFINITION. The named operations over memory, registers, stack, keys and pc, and taking a fault (R207) with the way back from one (R209). -/

namespace Sys2Proof.Machine

/-! ### Memory (20_memory.md) -/

/-- `Mem[a]`: a cell that is not listed holds 0 (R25, R46). -/
def Memory.read : Memory → Nat → Byte
  | [], _ => 0
  | (k, b) :: m, a => if k = a then b else Memory.read m a

/-- `Mem[a] <- v`, "no other cell changes" (R41); keeps the canonical form, so writing 0 removes the entry. -/
def Memory.write : Memory → Nat → Byte → Memory
  | [], a, v => if v = 0 then [] else [(a, v)]
  | (k, b) :: m, a, v =>
    if a < k then (if v = 0 then (k, b) :: m else (a, v) :: (k, b) :: m)
    else if a = k then (if v = 0 then m else (a, v) :: m)
    else (k, b) :: Memory.write m a v

/-- Single bytes in ascending address order from `a` (R44). -/
def Memory.writeBytes : Memory → Nat → List Byte → Memory
  | m, _, [] => m
  | m, a, b :: bs => Memory.writeBytes (m.write a b) (a + 1) bs

/-- Every listed address is at least `lo`, rising strictly, below 4096, and its byte is not 0. -/
def Memory.wfFrom : Nat → Memory → Bool
  | _, [] => true
  | lo, (k, b) :: m => decide (lo ≤ k) && decide (k < Config.memSize) && decide (b ≠ 0) && Memory.wfFrom (k + 1) m

/-- The canonical form of the Address Space (log 4). -/
def Memory.wf (m : Memory) : Bool := Memory.wfFrom 0 m

/-- `MemRead(a, 2)` of instruction fetch: `{Mem[a], Mem[a+1]}`, none where `a + 1 > 4095` (R41, R43). -/
def Memory.readWord (m : Memory) (a : Nat) : Option Word :=
  if a + 1 < Config.memSize then some (wordOfBytes (m.read a) (m.read (a + 1))) else none

/-! ### Registers and stack (10_state.md) -/

/-- The number of VF (R11). -/
@[simp] abbrev VF : Nibble := 15

/-- Read `V[x]`; the 4-bit field is the register number (R10, R63). -/
def State.getV (s : State) (x : Nibble) : Byte := s.V.get x.toFin

/-- `V[x] <- v`; no register is hard-wired (R10). -/
def State.setV (s : State) (x : Nibble) (v : Byte) : State := { s with V := s.V.set x.toNat v x.isLt }

/-- Read `stack[k]` (R14). -/
def State.getStack (s : State) (k : Nibble) : Word := s.stack.get k.toFin

/-- `stack[k] <- w` (R14). -/
def State.setStack (s : State) (k : Nibble) (w : Word) : State := { s with stack := s.stack.set k.toNat w k.isLt }

/-- `key[k] = 1`; only indices 0..15 are held by the table (R19). -/
def State.keyHeld (s : State) (k : Nat) : Bool := if h : k < 16 then s.key[k] else false

/-- `key[k] <- held`, the effect of the host's SET_KEY (R19, R216). -/
def State.setKey (s : State) (k : Nibble) (held : Bool) : State := { s with key := s.key.set k.toNat held k.isLt }

/-! ### Framebuffer (44_display.md) -/

/-- Every cell 0 (R161). -/
def blankFrame : Frame := Vector.replicate 32 0

/-- Cell `k` of a framebuffer, 0..2047 (R18, R160). -/
def pixelOf (f : Frame) (k : Nat) : Bool := if h : k / 64 < 32 then f[k / 64].getLsbD (k % 64) else false

/-- `FB[k] <- FB[k] XOR 1` (R162). -/
def togglePixel (f : Frame) (k : Nat) : Frame :=
  if h : k / 64 < 32 then f.set (k / 64) (f[k / 64] ^^^ BitVec.twoPow 64 (k % 64)) h else f

/-- `FB[k]` of the machine. -/
def State.pixel (s : State) (k : Nat) : Bool := pixelOf s.FB k

/-! ### pc (40_cycle.md, 41_flow_and_skip.md) -/

/-- `pc <- target`; no control transfer checks its target (R108). -/
def State.jumpTo (s : State) (target : Word) : State := { s with pc := target }

/-- `if c then pc <- pc + 2`, the skip (R8, R103). -/
def State.skipIf (s : State) (c : Bool) : State :=
  if c then { s with pc := s.pc + BitVec.ofNat 16 Config.instrBytes } else s

/-! ### Faults (60_exceptions.md) -/

/-- The code of a fault in its diagnostic (R200). -/
def faultCode : Fault → Nat
  | .decodeFailure => 1
  | .fetchOutOfBounds => 2
  | .dataOutOfBounds => 3
  | .stackOverflow => 4
  | .stackUnderflow => 5
  | .keyIndexOutOfRange => 6

/-- FAULT ENTRY (R207): `halted <- 1` and the diagnostic; pc, ir and everything else stay as they are. -/
def State.enterFault (s : State) (f : Fault) (addr : Word) (info : Nat) : State :=
  { s with halted := true, diag := some ⟨f, addr, s.ir, info⟩ }

/-- A fault of the decode or execute step: `addr` is the instruction's own address, which is the post-fetch pc less 2 (R200, R83; log 14). -/
def State.raise (s : State) (f : Fault) (info : Nat) : State :=
  s.enterFault f (s.pc - BitVec.ofNat 16 Config.instrBytes) info

/-- The way back from a fault: there is no return instruction, the host writes the flag with SET_HALTED (R209, R20). -/
def State.setHalted (s : State) (b : Bool) : State := { s with halted := b }

/-- The host's SET_DRAW_READY (R21, R216). -/
def State.setDrawReady (s : State) (b : Bool) : State := { s with drawReady := b }

/-- An instruction whose footprint is the `n` bytes from `I` has the effect `t`, or takes DataOutOfBounds with the last address,
before anything changes, when that address is above 4095 (R41, R203, R146). -/
def State.withFootprint (s : State) (n : Nat) (t : State) : State :=
  if 0 < n ∧ Config.memSize ≤ s.I.toNat + n - 1 then s.raise .dataOutOfBounds (s.I.toNat + n - 1) else t

end Sys2Proof.Machine
end

