-- ==== Sys2Proof/Machine/Operands.lean ====
section
/-! DEFINITION. The operand forms of the 34 instructions: immediates, the targets and addresses computed from them, the register
list of Fx55 and Fx65, decimal digits, the key scan. -/

namespace Sys2Proof.Machine

/-- `zext_16(nnn)` (R63). -/
def addrOf (nnn : Addr12) : Word := nnn.setWidth 16

/-- The Bnnn target `(nnn + V[0]) mod 256`, zero-extended (R107). -/
def jumpV0Target (nnn : Addr12) (v0 : Byte) : Word := BitVec.ofNat 16 ((nnn.toNat + v0.toNat) % Config.bjumpMod)

/-- The Fx1E sum `(I + V[x]) mod 4096` (R141). -/
def stepI (i : Word) (v : Byte) : Word := BitVec.ofNat 16 ((i.toNat + v.toNat) % Config.iMod)

/-- The Fx29 address `V[x] * 5`, all 8 bits of `V[x]` (R142). -/
def fontAddr (v : Byte) : Word := BitVec.ofNat 16 (v.toNat * Config.fontStride)

/-- The decimal digits of a byte, hundreds, tens, ones, one a byte (R143). -/
def bcdDigits (v : Byte) : List Byte :=
  [BitVec.ofNat 8 (v.toNat / 100), BitVec.ofNat 8 (v.toNat / 10 % 10), BitVec.ofNat 8 (v.toNat % 10)]

/-- `V[0]` to `V[x]` inclusive: `x + 1` registers, `x` the field and not `V[x]` (R144). -/
def State.regList (s : State) (x : Nibble) : List Byte :=
  (List.range (x.toNat + 1)).map (fun i => s.getV (BitVec.ofNat 4 i))

/-- `for i from 0 to n - 1: V[i] <- MemRead(I + i, 1)` (R145). -/
def State.loadRegs (s : State) (n : Nat) : State :=
  (List.range n).foldl (fun t i => t.setV (BitVec.ofNat 4 i) (s.mem.read (s.I.toNat + i))) s

/-- The key index of Ex9E and ExA1: the whole of `V[x]`, not its low nibble (R180). -/
def State.keyIndex (s : State) (x : Nibble) : Nat := (s.getV x).toNat

/-- The lowest-numbered held key, if any: ascending scan, first held key wins (R182). -/
def State.firstHeldKey (s : State) : Option Nat := (List.range Config.nKey).find? (fun k => s.keyHeld k)

end Sys2Proof.Machine
end

