-- ==== Sys2Proof/Machine/Alu.lean ====
section
/-! DEFINITION. Register load, arithmetic, logic, shifts, random (42_alu.md).
Statements run in the order written, each reading the registers as the one before left them, which shows only when x or y is 15
(R6, R133; log 8). -/

namespace Sys2Proof.Machine

/-- 6xkk (R120). -/
def execLdImm (x : Nibble) (kk : Byte) (s : State) : Host.Outcome State Fault Refusal := .next (s.setV x kk)

/-- 7xkk (R121): no flag, the sum wraps. -/
def execAddImm (x : Nibble) (kk : Byte) (s : State) : Host.Outcome State Fault Refusal :=
  .next (s.setV x (s.getV x + kk))

/-- 8xy0 (R122). -/
def execLdReg (x y : Nibble) (s : State) : Host.Outcome State Fault Refusal := .next (s.setV x (s.getV y))

/-- 8xy1 (R123): VF unchanged. -/
def execOrReg (x y : Nibble) (s : State) : Host.Outcome State Fault Refusal :=
  .next (s.setV x (s.getV x ||| s.getV y))

/-- 8xy2 (R124): VF unchanged. -/
def execAndReg (x y : Nibble) (s : State) : Host.Outcome State Fault Refusal :=
  .next (s.setV x (s.getV x &&& s.getV y))

/-- 8xy3 (R125): VF unchanged. -/
def execXorReg (x y : Nibble) (s : State) : Host.Outcome State Fault Refusal :=
  .next (s.setV x (s.getV x ^^^ s.getV y))

/-- 8xy4 (R126): "sum computed before anything is written", then the flag, then the result. -/
def execAddReg (x y : Nibble) (s : State) : Host.Outcome State Fault Refusal :=
  let sum := s.getV x + s.getV y
  .next ((s.setV VF (carryFlag (s.getV x) (s.getV y))).setV x sum)

/-- 8xy5 (R127): step 1 the flag, step 2 the difference of the registers as step 1 left them. -/
def execSubReg (x y : Nibble) (s : State) : Host.Outcome State Fault Refusal :=
  let flagged := s.setV VF (notBorrowFlag (s.getV x) (s.getV y))
  .next (flagged.setV x (flagged.getV x - flagged.getV y))

/-- 8xy6 (R128): step 1 the flag, step 2 the logical shift; `y` is ignored. -/
def execShr (x _y : Nibble) (s : State) : Host.Outcome State Fault Refusal :=
  let flagged := s.setV VF (lowBitFlag (s.getV x))
  .next (flagged.setV x (flagged.getV x >>> 1))

/-- 8xy7 (R129): step 1 the flag, step 2 the difference of the registers as step 1 left them. -/
def execSubn (x y : Nibble) (s : State) : Host.Outcome State Fault Refusal :=
  let flagged := s.setV VF (greaterFlag (s.getV x) (s.getV y))
  .next (flagged.setV x (flagged.getV y - flagged.getV x))

/-- 8xyE (R130): step 1 the flag, step 2 the shift; `y` is ignored. -/
def execShl (x _y : Nibble) (s : State) : Host.Outcome State Fault Refusal :=
  let flagged := s.setV VF (highBitFlag (s.getV x))
  .next (flagged.setV x (flagged.getV x <<< 1))

/-- Cxkk (R131): `rand` is the argument of this RUN_CYCLE. -/
def execRnd (x : Nibble) (kk : Byte) (s : State) : Host.Outcome State Fault Refusal :=
  .next (s.setV x (s.rand &&& kk))

end Sys2Proof.Machine
end

