-- ==== Sys2Proof/Machine/Display.lean ====
section
/-! DEFINITION. Framebuffer clear and sprite draw (44_display.md). -/

namespace Sys2Proof.Machine

/-- A draw under way: the framebuffer, and whether a pixel has gone from 1 to 0 so far (R162). -/
structure Blit where
  /-- `FB` so far. -/
  FB : Frame
  /-- `collision` so far. -/
  collision : Bool
  deriving DecidableEq, Repr

/-- One set bit of the sprite at (px, py): XORed in, or dropped beyond the 64×32 bounds; the coordinates are plain numbers and
never wrap (R162, R163). -/
def plotPixel (px py : Nat) (b : Blit) : Blit :=
  if px < Config.fbWidth ∧ py < Config.fbHeight then
    let k := py * Config.fbWidth + px
    { FB := togglePixel b.FB k, collision := b.collision || pixelOf b.FB k }
  else b

/-- One sprite row: column `col` is bit `7 - col`, leftmost first (R160). -/
def plotRow (bits : Byte) (vx py : Nat) (b : Blit) : Blit :=
  (List.range Config.spriteWidth).foldl (fun c col => if bits.getLsbD (7 - col) then plotPixel (vx + col) py c else c) b

/-- The `n` sprite rows from address `a`, row r at screen row `vy + r` (R162). -/
def plotSprite (m : Memory) (a n vx vy : Nat) (b : Blit) : Blit :=
  (List.range n).foldl (fun c row => plotRow (m.read (a + row)) vx (vy + row) c) b

/-- 00E0 (R161): neither VF nor `draw_ready` is written (log 15). -/
def execCls (s : State) : Host.Outcome State Fault Refusal := .next { s with FB := blankFrame }

/-- The state after a Dxyn whose bytes all lie in memory: VF and `draw_ready` are always written, `V[x]` and `V[y]` are read
before VF is (R162, R164). -/
def drawSprite (x y n : Nibble) (s : State) : State :=
  let b := plotSprite s.mem s.I.toNat n.toNat (s.getV x).toNat (s.getV y).toNat ⟨s.FB, false⟩
  { s with FB := b.FB, drawReady := true }.setV VF (collisionFlag b.collision)

/-- Dxyn (R162): the draw, or DataOutOfBounds and nothing drawn (R203). -/
def execDrw (x y n : Nibble) (s : State) : Host.Outcome State Fault Refusal :=
  .next (s.withFootprint n.toNat (drawSprite x y n s))

end Sys2Proof.Machine
end

