-- ==== Sys2Proof/Machine/Flow.lean ====
section
/-! DEFINITION. Control transfer and register skips (41_flow_and_skip.md).
In every meaning `pc` on entry is the post-fetch pc (R83); the timer tick is the cycle's, not the instruction's. -/

namespace Sys2Proof.Machine

/-- 00EE (R100): the cell is read and not cleared; `sp = 0` is StackUnderflow (R205). -/
def execRet (s : State) : Host.Outcome State Fault Refusal :=
  if s.sp = 0 then .next (s.raise .stackUnderflow 0)
  else .next { s with pc := s.getStack s.sp, sp := s.sp - 1 }

/-- 1nnn (R101). -/
def execJp (nnn : Addr12) (s : State) : Host.Outcome State Fault Refusal := .next (s.jumpTo (addrOf nnn))

/-- 2nnn (R102): `sp` moves first, so the cell written is the one above the old `sp`; `sp = 15` is StackOverflow (R204). -/
def execCall (nnn : Addr12) (s : State) : Host.Outcome State Fault Refusal :=
  if s.sp.toNat = Config.spMax then .next (s.raise .stackOverflow 0)
  else
    let pushed := { s with sp := s.sp + 1 }
    .next ((pushed.setStack pushed.sp pushed.pc).jumpTo (addrOf nnn))

/-- 3xkk (R103). -/
def execSeImm (x : Nibble) (kk : Byte) (s : State) : Host.Outcome State Fault Refusal :=
  .next (s.skipIf (decide (s.getV x = kk)))

/-- 4xkk (R104). -/
def execSneImm (x : Nibble) (kk : Byte) (s : State) : Host.Outcome State Fault Refusal :=
  .next (s.skipIf (decide (s.getV x ≠ kk)))

/-- 5xy0 (R105). -/
def execSeReg (x y : Nibble) (s : State) : Host.Outcome State Fault Refusal :=
  .next (s.skipIf (decide (s.getV x = s.getV y)))

/-- 9xy0 (R106). -/
def execSneReg (x y : Nibble) (s : State) : Host.Outcome State Fault Refusal :=
  .next (s.skipIf (decide (s.getV x ≠ s.getV y)))

/-- Bnnn (R107): `I` plays no part (conflict C5). -/
def execJpV0 (nnn : Addr12) (s : State) : Host.Outcome State Fault Refusal :=
  .next (s.jumpTo (jumpV0Target nnn (s.getV 0)))

end Sys2Proof.Machine
end

