-- ==== Sys2Proof/Machine/IndexMemory.lean ====
section
/-! DEFINITION. Address register and memory instructions (43_index_memory.md). None writes VF as a flag; `I` is changed only by
Annn, Fx1E and Fx29. -/

namespace Sys2Proof.Machine

/-- Annn (R140). -/
def execLdI (nnn : Addr12) (s : State) : Host.Outcome State Fault Refusal := .next { s with I := addrOf nnn }

/-- Fx1E (R141). -/
def execAddI (x : Nibble) (s : State) : Host.Outcome State Fault Refusal := .next { s with I := stepI s.I (s.getV x) }

/-- Fx29 (R142). -/
def execLdF (x : Nibble) (s : State) : Host.Outcome State Fault Refusal := .next { s with I := fontAddr (s.getV x) }

/-- Fx33 (R143): three digits at `I`, `I+1`, `I+2`, or DataOutOfBounds and no store (log 7). -/
def execLdB (x : Nibble) (s : State) : Host.Outcome State Fault Refusal :=
  .next (s.withFootprint 3 { s with mem := s.mem.writeBytes s.I.toNat (bcdDigits (s.getV x)) })

/-- Fx55 (R144): `V[0]..V[x]` at `I..I+x`, or DataOutOfBounds and no store. -/
def execLdMemVx (x : Nibble) (s : State) : Host.Outcome State Fault Refusal :=
  .next (s.withFootprint (x.toNat + 1) { s with mem := s.mem.writeBytes s.I.toNat (s.regList x) })

/-- Fx65 (R145): `V[0]..V[x]` from `I..I+x`, or DataOutOfBounds and no load. -/
def execLdVxMem (x : Nibble) (s : State) : Host.Outcome State Fault Refusal :=
  .next (s.withFootprint (x.toNat + 1) (s.loadRegs (x.toNat + 1)))

end Sys2Proof.Machine
end

