-- ==== Sys2Proof/Machine/KeysTimers.lean ====
section
/-! DEFINITION. Key and timer instructions (45_keys_timers.md). None writes VF as a flag or accesses memory. -/

namespace Sys2Proof.Machine

/-- The key skips: KeyIndexOutOfRange when `V[x] > 15`, no skip taken; else skip when the key's flag is `wanted` (R180, R181, R206). -/
def keySkip (x : Nibble) (wanted : Bool) (s : State) : State :=
  if Config.nKey ≤ s.keyIndex x then s.raise .keyIndexOutOfRange (s.keyIndex x)
  else s.skipIf (s.keyHeld (s.keyIndex x) == wanted)

/-- Ex9E (R180). -/
def execSkp (x : Nibble) (s : State) : Host.Outcome State Fault Refusal := .next (keySkip x true s)

/-- ExA1 (R181). -/
def execSknp (x : Nibble) (s : State) : Host.Outcome State Fault Refusal := .next (keySkip x false s)

/-- Fx0A (R182): pc goes back to this instruction; if a key is held, the lowest index goes to `V[x]` and pc on again. -/
def execLdVxK (x : Nibble) (s : State) : Host.Outcome State Fault Refusal :=
  let rewound := s.jumpTo (s.pc - BitVec.ofNat 16 Config.instrBytes)
  match s.firstHeldKey with
  | none => .next rewound
  | some k => .next ((rewound.setV x (BitVec.ofNat 8 k)).jumpTo (rewound.pc + BitVec.ofNat 16 Config.instrBytes))

/-- Fx07 (R183): DT as the previous cycle's tick left it. -/
def execLdVxDT (x : Nibble) (s : State) : Host.Outcome State Fault Refusal := .next (s.setV x s.DT)

/-- Fx15 (R184): the tick of the same cycle then counts the new value down. -/
def execLdDTVx (x : Nibble) (s : State) : Host.Outcome State Fault Refusal := .next { s with DT := s.getV x }

/-- Fx18 (R185): the tick of the same cycle then sees the new value. -/
def execLdSTVx (x : Nibble) (s : State) : Host.Outcome State Fault Refusal := .next { s with ST := s.getV x }

end Sys2Proof.Machine
end

