-- ==== Sys2Proof/Machine/Cycle.lean ====
section
/-! DEFINITION. One RUN_CYCLE: fetch, advance, decode, execute, tick (R81, 40_cycle.md). -/

namespace Sys2Proof.Machine

/-- The cycle begins: `rand` is its argument, and the outputs of the cycle before are gone (R80, R23). -/
def State.beginCycle (s : State) (rand : Byte) : State := { s with rand := rand, beep := false, diag := none }

/-- Steps 1 and 2 after the two bytes are read: `ir <- w`, `pc <- pc + 2` (R82, R83). -/
def State.fetched (s : State) (w : Word) : State :=
  { s with ir := w, pc := s.pc + BitVec.ofNat 16 Config.instrBytes }

/-- The decode fault: `ir` is the illegal word and pc the post-fetch pc (R201). -/
def State.rejectWord (s : State) : State := s.raise .decodeFailure s.ir.toNat

/-- The fetch fault: pc and ir unchanged (R202). -/
def State.rejectFetch (s : State) : State := s.enterFault .fetchOutOfBounds s.pc s.pc.toNat

/-- "decrement toward zero if positive", clamped at zero (R85). -/
def countDown (t : Byte) : Byte := if t = 0 then 0 else t - 1

/-- Step 5: the beep is `ST = 1` before the subtraction; both timers count down (R85, R86). -/
def State.tick (s : State) : State :=
  { s with beep := decide (s.ST = 1), DT := countDown s.DT, ST := countDown s.ST }

/-- Steps 1 to 4: a fault abandons the rest of them and is taken (R81, R207, R208). -/
def fetchExecute (s : State) : Host.Outcome State Fault Refusal :=
  match s.mem.readWord s.pc.toNat with
  | none => .next s.rejectFetch
  | some w =>
    match decodeWord w with
    | .error _ => .next (s.fetched w).rejectWord
    | .ok i => exec i (s.fetched w)

/-- Step 5 follows steps 1 to 4 in every cycle (R85). -/
def thenTick : Host.Outcome State Fault Refusal → Host.Outcome State Fault Refusal
  | .next s => .next s.tick
  | .fault f => .fault f
  | .refused r => .refused r

/-- `RUN_CYCLE(rand)` (R80, R81); `halted` is not tested (R88). The outputs are the fields `beep` and `diag` of the next state. -/
def runCycle (rand : Byte) (s : State) : Host.Outcome State Fault Refusal := thenTick (fetchExecute (s.beginCycle rand))

/-- The random byte of the next cycle, a free value (R131; log 3). -/
def State.nextRand (s : State) : Byte := Config.randByte s.randIdx

/-- One random byte has been drawn (log 3). -/
def State.drawn (s : State) : State := { s with randIdx := s.randIdx + 1 }

/-- The two bytes of `w` stand at `pc`, high byte first (R43). Where no instruction can be fetched (`pc > 4094`, R82), pc goes to
the load offset first (log 11). -/
def State.placeWord (s : State) (w : Word) : State :=
  let r := if s.pc.toNat + 1 < Config.memSize then s else s.jumpTo (BitVec.ofNat 16 Config.loadOffset)
  { r with mem := r.mem.writeBytes r.pc.toNat [highByte w, lowByte w] }

end Sys2Proof.Machine
end

