-- ==== Sys2Proof/Machine/Step.lean ====
section
/-! DEFINITION. The step of the machine: one RUN_CYCLE with the next free random byte. -/

namespace Sys2Proof.Machine

/-- One cycle, `RUN_CYCLE(rand)` with `rand` the next free byte (R80, R81, R131; logs 3 and 9). -/
def step (s : State) : Host.Outcome State Fault Refusal := runCycle s.nextRand s.drawn

/-- `s` with the instruction of bits `w` stored where `step` fetches its next instruction; one instruction is one 16-bit word, of
which the bits above `nbits` are 0 (R60, R43). -/
def State.withFetchWord (s : State) (nbits w : Nat) : State := s.placeWord (BitVec.ofNat 16 (w % 2 ^ nbits))

end Sys2Proof.Machine
end

