-- ==== Sys2Proof/Machine/Environment.lean ====
section
/-! DEFINITION. The operations the environment can perform between cycles (R216, R217, 60_exceptions.md; 70_reset_and_hazards.md).
They are atomic and totally ordered, so a history is a list of them (R7). -/

namespace Sys2Proof.Machine

/-- A host operation (R216). -/
inductive EnvOp where
  /-- RESET (R230). -/
  | reset
  /-- LOAD(bytes) (R233). -/
  | load (bytes : List Byte)
  /-- RUN_CYCLE(rand) (R80). -/
  | runCycle (rand : Byte)
  /-- SET_KEY(index, held) (R19). -/
  | setKey (index : Nat) (held : Bool)
  /-- SET_DRAW_READY(b) (R21). -/
  | setDrawReady (b : Bool)
  /-- SET_HALTED(b) (R20). -/
  | setHalted (b : Bool)
  /-- Read `halted`. -/
  | readHalted
  /-- Read `draw_ready`. -/
  | readDrawReady
  /-- Read the framebuffer (R165). -/
  | readFramebuffer
  deriving DecidableEq, Repr

/-- What an operation returns (R216). -/
inductive EnvReply where
  /-- Nothing. -/
  | done
  /-- `(beep, diag)` of RUN_CYCLE (R80). -/
  | cycle (beep : Bool) (diag : Option Diag)
  /-- A flag. -/
  | flag (b : Bool)
  /-- The 2048 pixels, a copy (R165). -/
  | frame (pixels : Frame)
  deriving DecidableEq, Repr

/-- RESET (R230): the state of R25; only the count of random bytes drawn goes on, so that no byte is drawn twice (log 3). -/
def State.resetOp (s : State) : State := { State.reset with randIdx := s.randIdx }

/-- LOAD (R233): RESET, then the raw bytes from the load offset. -/
def State.loadOp (s : State) (bytes : List Byte) : State :=
  { s.resetOp with mem := s.resetOp.mem.writeBytes Config.loadOffset bytes }

/-- One operation on a machine that has been reset: the state after it and what it returns (R216). -/
def perform (op : EnvOp) (s : State) : Host.Outcome (State × EnvReply) Fault Refusal :=
  match op with
  | .reset => .next (s.resetOp, .done)
  | .load bytes => if programFits bytes then .next (s.loadOp bytes, .done) else .refused .loadTooLong
  | .runCycle rand =>
    match Sys2Proof.Machine.runCycle rand s with
    | .next t => .next (t, .cycle t.beep t.diag)
    | .fault f => .fault f
    | .refused r => .refused r
  | .setKey index held =>
    if keyIndexOk index then .next (s.setKey (BitVec.ofNat 4 index) held, .done) else .refused .keyIndexTooLarge
  | .setDrawReady b => .next (s.setDrawReady b, .done)
  | .setHalted b => .next (s.setHalted b, .done)
  | .readHalted => .next (s, .flag s.halted)
  | .readDrawReady => .next (s, .flag s.drawReady)
  | .readFramebuffer => .next (s, .frame s.FB)

/-- One operation on a machine that may not have been reset since power-on (`none`): only RESET and LOAD are defined there (R26, R231). -/
def performFromPower (op : EnvOp) : Option State → Host.Outcome (State × EnvReply) Fault Refusal
  | some s => perform op s
  | none =>
    match op with
    | .reset => perform .reset State.reset
    | .load bytes => perform (.load bytes) State.reset
    | .runCycle _ | .setKey _ _ | .setDrawReady _ | .setHalted _ | .readHalted | .readDrawReady | .readFramebuffer =>
      .refused .beforeFirstReset

/-- A history of operations, stopping where one is declined; the replies are dropped. -/
def performAll : List EnvOp → State → Host.Outcome State Fault Refusal
  | [], s => .next s
  | op :: ops, s =>
    match perform op s with
    | .next (t, _) => performAll ops t
    | .fault f => .fault f
    | .refused r => .refused r

/-- The host's loop of R232, for as many rounds as the list is long: stop when `halted`, else run one cycle with the round's
random byte and then the round's other operations. -/
def drive : List (Byte × List EnvOp) → State → Host.Outcome State Fault Refusal
  | [], s => .next s
  | (rand, ops) :: rounds, s =>
    if s.halted then .next s
    else
      match performAll (.runCycle rand :: ops) s with
      | .next t => drive rounds t
      | .fault f => .fault f
      | .refused r => .refused r

end Sys2Proof.Machine
end

