-- ==== Sys2Proof/Safety.lean ====
section
/-! DEFINITION. What claims are made in terms of: the invariant of R27, what a change leaves alone, the reading of R211 under
which no claim passes a fault, and the two conventional ends of a program (R89). -/

namespace Sys2Proof.Safety

open Sys2Proof.Machine

/-- A stack cell holds 0 or a post-fetch pc, 2..4096 (R27). -/
abbrev StackCellOk (w : Word) : Prop := w = 0 ∨ (2 ≤ w.toNat ∧ w.toNat ≤ 4096)

/-- The invariant of R27 (10_state.md): what the fields' types do not say already. -/
abbrev MachineInv (s : State) : Prop :=
  s.I.toNat ≤ 4095 ∧ s.pc.toNat ≤ 4098 ∧ (∀ k : Fin 16, StackCellOk (s.stack.get k)) ∧ s.mem.wf = true

/-- The parts of the state, one a field; a frame names those that may have changed. -/
inductive Part where
  | V | I | pc | stack | sp | DT | ST | FB | key | halted | drawReady | ir | mem | rand | randIdx | beep | diag
  deriving DecidableEq, Repr

/-- The part reads the same in both states: each register, stack cell, pixel, key flag and memory byte of it. -/
def Part.same (s t : State) : Part → Prop
  | .V => ∀ r, t.getV r = s.getV r
  | .I => t.I = s.I
  | .pc => t.pc = s.pc
  | .stack => ∀ k, t.getStack k = s.getStack k
  | .sp => t.sp = s.sp
  | .DT => t.DT = s.DT
  | .ST => t.ST = s.ST
  | .FB => ∀ k, t.pixel k = s.pixel k
  | .key => ∀ k, t.keyHeld k = s.keyHeld k
  | .halted => t.halted = s.halted
  | .drawReady => t.drawReady = s.drawReady
  | .ir => t.ir = s.ir
  | .mem => ∀ a, t.mem.read a = s.mem.read a
  | .rand => t.rand = s.rand
  | .randIdx => t.randIdx = s.randIdx
  | .beep => t.beep = s.beep
  | .diag => t.diag = s.diag

/-- The frame: every part but those listed reads the same in `t` as in `s`. -/
def UnchangedBut (changed : List Part) (s t : State) : Prop := ∀ p, p ∉ changed → Part.same s t p

/-- One step under the advice of R211: a cycle that returns a `diag` is a fault outcome. -/
def strictStep (s : State) : Host.Outcome State Fault Refusal :=
  match step s with
  | .next t =>
    match t.diag with
    | none => .next t
    | some d => .fault d.fault
  | .fault f => .fault f
  | .refused r => .refused r

/-- `k` cycles, none of which returned a `diag`: the premise R211 asks of a claim about a program. -/
def cleanRun : Nat → State → Host.Outcome State Fault Refusal
  | 0, s => .next s
  | k + 1, s =>
    match strictStep s with
    | .next t => cleanRun k t
    | .fault f => .fault f
    | .refused r => .refused r

/-- The jump-to-self end of a program: the word at `pc` is 1nnn with `nnn = pc` (R89). -/
def parked (s : State) : Bool :=
  match s.mem.readWord s.pc.toNat with
  | some w => decide (decodeWord w = .ok (.jp (s.pc.setWidth 12)))
  | none => false

/-- The faulted end of a program: the last cycle returned a `diag` and `halted` is set (R89). -/
def faulted (s : State) : Bool := s.halted && s.diag.isSome

/-- The model's `END_OF_RUN` (R89, D20; log 6): a program has finished when it is parked or has faulted. -/
def endOfRun (s : State) : Bool := parked s || faulted s

end Sys2Proof.Safety
end

