-- ==== Sys2Proof/Certificates/Slice0/Obligations.lean ====
section
/-! DEFINITION. The statements for the provers.
`exec i s` is the execute step: in it `s` is the state after fetch and advance, so `s.pc` is the post-fetch pc (R83).
A frame `UnchangedBut ps s t` says that every part of the state but those in `ps` reads the same: each register, stack cell, pixel,
key flag and byte of memory. Where a statement rests on a decision of the spec (D<n>, 92_eei_decisions.md) or of the model (log <n>),
its docstring says so. -/

open Sys2Proof Sys2Proof.Machine Sys2Proof.Safety

namespace Sys2Proof.Statement

/-- The byte a flag is: 1 if the condition holds, else 0. -/
abbrev oneIf (p : Prop) [Decidable p] : Byte := if p then 1 else 0

/-- The sprite of Dxyn has a set bit whose target is cell `k` of the framebuffer (R162, R163). -/
def Covers (s : State) (x y n : Nibble) (k : Nat) : Prop :=
  ∃ row col, row < n.toNat ∧ col < 8 ∧ (s.mem.read (s.I.toNat + row)).getLsbD (7 - col) = true ∧
    (s.getV x).toNat + col < 64 ∧ (s.getV y).toNat + row < 32 ∧
    k = ((s.getV y).toNat + row) * 64 + ((s.getV x).toNat + col)

/-- How many bytes from `I` an instruction reads or writes (R42); none for those that do not reach memory. -/
def footprint : Instr → Option Nat
  | .drw _ _ n => some n.toNat
  | .ldB _ => some 3
  | .ldMemVx x => some (x.toNat + 1)
  | .ldVxMem x => some (x.toNat + 1)
  | _ => none

/-- The table of R84: pc after a cycle without a fault, from the state `s` before it and the post-fetch value `p`. -/
def pcAfter (s : State) (p : Word) : Instr → Word
  | .ret => s.getStack s.sp
  | .jp nnn => nnn.setWidth 16
  | .call nnn => nnn.setWidth 16
  | .jpV0 nnn => BitVec.ofNat 16 ((nnn.toNat + (s.getV 0).toNat) % 256)
  | .seImm x kk => if s.getV x = kk then p + 2 else p
  | .sneImm x kk => if s.getV x ≠ kk then p + 2 else p
  | .seReg x y => if s.getV x = s.getV y then p + 2 else p
  | .sneReg x y => if s.getV x ≠ s.getV y then p + 2 else p
  | .skp x => if s.keyHeld (s.getV x).toNat = true then p + 2 else p
  | .sknp x => if s.keyHeld (s.getV x).toNat = false then p + 2 else p
  | .ldVxK _ => if ∃ k, k < 16 ∧ s.keyHeld k = true then p else p - 2
  | _ => p

/-- The instructions of the table of R11 that write VF as a flag. -/
def writesFlag : Instr → Bool
  | .addReg _ _ | .subReg _ _ | .shr _ _ | .subn _ _ | .shl _ _ | .drw _ _ _ => true
  | _ => false

/-- The register field `x` that an instruction without a flag writes its result to, if it writes a register (Fx65 writes up to `x`). -/
def destination : Instr → Option Nibble
  | .ldImm x _ | .addImm x _ | .ldReg x _ | .orReg x _ | .andReg x _ | .xorReg x _ | .rnd x _ | .ldVxDT x | .ldVxMem x | .ldVxK x =>
    some x
  | _ => none

/-- The registers an instruction writes: its destination, and VF where the table of R11 says so (10_state.md §1 and §2). -/
def writesRegister (r : Nibble) : Instr → Prop
  | .ldImm x _ | .addImm x _ | .ldReg x _ | .orReg x _ | .andReg x _ | .xorReg x _ | .rnd x _ | .ldVxDT x | .ldVxK x => r = x
  | .addReg x _ | .subReg x _ | .shr x _ | .subn x _ | .shl x _ => r = x ∨ r = 15
  | .drw _ _ _ => r = 15
  | .ldVxMem x => r.toNat ≤ x.toNat
  | _ => False

/-- The instructions that write pc in the execute step: every other line of the table of R84 is the post-fetch pc. -/
def writesPc : Instr → Bool
  | .ret | .jp _ | .call _ | .jpV0 _ | .seImm _ _ | .sneImm _ _ | .seReg _ _ | .sneReg _ _ | .skp _ | .sknp _ | .ldVxK _ => true
  | _ => false

/-- The state in which `exec` runs the word `w` that `step` fetched in `s`: the cycle's random byte is latched, the outputs of the
cycle before are gone, `ir` is the word and pc has advanced (R80 to R83). -/
def afterFetch (s : State) (w : Word) : State :=
  { s with rand := Config.randByte s.randIdx, randIdx := s.randIdx + 1, beep := false, diag := none, ir := w, pc := s.pc + 2 }

end Sys2Proof.Statement

open Sys2Proof.Statement

/-! ### Reset and the invariant -/

/-- Every value of the table of R25 (10_state.md §9) at reset; the memory's zeros are decision D17. -/
def Obligations.ResetStateIsTheTable : Prop :=
  (∀ r, State.reset.getV r = 0) ∧ (∀ k, State.reset.getStack k = 0) ∧ (∀ k, State.reset.keyHeld k = false) ∧
  (∀ k, State.reset.pixel k = false) ∧ State.reset.DT = 0 ∧ State.reset.ST = 0 ∧ State.reset.pc.toNat = 512 ∧
  State.reset.ir = 0 ∧ State.reset.sp = 0 ∧ State.reset.I = 0 ∧ State.reset.halted = false ∧ State.reset.drawReady = false ∧
  ∀ a, State.reset.mem.read a = 0

/-- R27 holds at reset. -/
def Obligations.ResetMeetsTheInvariant : Prop := MachineInv State.reset

/-- Every cycle keeps R27 (marked derived there): `I ≤ 4095`, `pc ≤ 4098`, every stack cell 0 or a post-fetch pc, memory canonical. -/
def Obligations.EveryCycleKeepsTheInvariant : Prop := ∀ s t, MachineInv s → step s = .next t → MachineInv t

/-- Every operation the environment can perform (R216, decision D1) keeps R27, RESET and LOAD among them. -/
def Obligations.EveryHostOperationKeepsTheInvariant : Prop :=
  ∀ op s t reply, MachineInv s → perform op s = .next (t, reply) → MachineInv t

/-- R80: "It always completes". A fault is taken in a next state (R207, decision D16; log 1), so no instruction, no word and no pc
stops the machine. -/
def Obligations.EveryCycleAnswersANextState : Prop :=
  (∀ i s, ∃ t, exec i s = .next t) ∧ (∀ rand s, ∃ t, runCycle rand s = .next t) ∧ ∀ s, ∃ t, step s = .next t

/-! ### Encoding -/

/-- Every instruction's two bytes decode to it, whatever follows them (R60 to R65). -/
def Obligations.DecodeOfEncode : Prop :=
  ∀ i rest, decodeWord (encode i) = .ok i ∧ decode (encodeBytes i ++ rest) = .ok (i, rest)

/-- Every legal word has one meaning, and it is the word that instruction encodes to: no bit is dropped (R61, R65). -/
def Obligations.EncodeOfDecode : Prop := ∀ w i, decodeWord w = .ok i → encode i = w

/-- A word decodes exactly if some row of the opcode map accepts it, and then to an instruction whose own row is in the map and
accepts it (R64, R65; the strictness of families 0, 5, 9, E, F is decision D14, log 19). -/
def Obligations.DecoderAcceptsTheOpcodeMap : Prop :=
  ∀ w, ((∃ i, decodeWord w = .ok i) ↔ wordLegal w = true) ∧
    ∀ i, decodeWord w = .ok i → i.row ∈ opcodeMap ∧ i.row.accepts w = true

/-- "No two rows overlap" (R65). -/
def Obligations.OpcodeRowsDoNotOverlap : Prop :=
  opcodeMap.length = 34 ∧ opcodeMap.Pairwise (fun p q => ∀ w, ¬(p.accepts w = true ∧ q.accepts w = true))

/-- The illegal words are exactly those of R66, family by family (decision D14). -/
def Obligations.IllegalWordsAreRejectedByFamily : Prop :=
  ∀ w : Word,
    (decodeWord w = .error .family0 ↔ w.toNat / 4096 = 0x0 ∧ w.toNat ≠ 0x00E0 ∧ w.toNat ≠ 0x00EE) ∧
    (decodeWord w = .error .family5 ↔ w.toNat / 4096 = 0x5 ∧ w.toNat % 16 ≠ 0) ∧
    (decodeWord w = .error .family8 ↔ w.toNat / 4096 = 0x8 ∧ w.toNat % 16 ∈ [0x8, 0x9, 0xA, 0xB, 0xC, 0xD, 0xF]) ∧
    (decodeWord w = .error .family9 ↔ w.toNat / 4096 = 0x9 ∧ w.toNat % 16 ≠ 0) ∧
    (decodeWord w = .error .familyE ↔ w.toNat / 4096 = 0xE ∧ w.toNat % 256 ∉ [0x9E, 0xA1]) ∧
    (decodeWord w = .error .familyF ↔
      w.toNat / 4096 = 0xF ∧ w.toNat % 256 ∉ [0x07, 0x0A, 0x15, 0x18, 0x1E, 0x29, 0x33, 0x55, 0x65]) ∧
    decodeWord w ≠ .error .shortInput

/-- Words of the spec's own examples, a few of each file: 0xD012 is DRW V0, V1, 2 and so on. -/
def Obligations.SpecWordsDecode : Prop :=
  decodeWord 0x00E0 = .ok .cls ∧ decodeWord 0x220C = .ok (.call 0x20C) ∧ decodeWord 0x3100 = .ok (.seImm 1 0) ∧
  decodeWord 0x5340 = .ok (.seReg 3 4) ∧ decodeWord 0x8014 = .ok (.addReg 0 1) ∧ decodeWord 0x8F1E = .ok (.shl 15 1) ∧
  decodeWord 0xA300 = .ok (.ldI 0x300) ∧ decodeWord 0xC00F = .ok (.rnd 0 0x0F) ∧ decodeWord 0xD012 = .ok (.drw 0 1 2) ∧
  decodeWord 0xE19E = .ok (.skp 1) ∧ decodeWord 0xF033 = .ok (.ldB 0) ∧ decodeWord 0xF10A = .ok (.ldVxK 1)

/-! ### The cycle -/

/-- When the two bytes at pc, the lower address the high byte, decode to `i`, a step is the execute step of `i` in the state after
fetch and advance, followed by the tick (R81 to R85). -/
def Obligations.StepRunsTheDecodedInstruction : Prop :=
  ∀ (s : State) (i : Instr), s.pc.toNat ≤ 4094 → decodeWord (s.mem.read s.pc.toNat ++ s.mem.read (s.pc.toNat + 1)) = .ok i →
    step s = thenTick (exec i (afterFetch s (s.mem.read s.pc.toNat ++ s.mem.read (s.pc.toNat + 1))))

/-- `pc > 4094`: FetchOutOfBounds, pc and ir unchanged, halted set, and the timers tick (R82, R202, R207; decisions D7 and D16). -/
def Obligations.FetchPastTheTopFaults : Prop :=
  ∀ s : State, 4094 < s.pc.toNat → ∃ t, step s = .next t ∧ t.halted = true ∧
    t.diag = some ⟨.fetchOutOfBounds, s.pc, s.ir, s.pc.toNat⟩ ∧ t.DT.toNat = s.DT.toNat - 1 ∧ t.ST.toNat = s.ST.toNat - 1 ∧
    UnchangedBut [.halted, .diag, .DT, .ST, .beep, .rand, .randIdx] s t

/-- An illegal word halts the machine with `ir` the word and pc after it, and changes nothing else but the timers (R201, marked
derived; the record is decision D16). -/
def Obligations.IllegalWordHaltsTheMachine : Prop :=
  ∀ (s : State) (w : Word), s.mem.readWord s.pc.toNat = some w → wordLegal w = false →
    ∃ t, step s = .next t ∧ t.halted = true ∧ t.ir = w ∧ t.pc.toNat = s.pc.toNat + 2 ∧
      t.diag = some ⟨.decodeFailure, s.pc, w, w.toNat⟩ ∧ t.DT.toNat = s.DT.toNat - 1 ∧ t.ST.toNat = s.ST.toNat - 1 ∧
      UnchangedBut [.halted, .diag, .ir, .pc, .DT, .ST, .beep, .rand, .randIdx] s t

/-- The tick: both timers count down and stop at 0, the beep is `ST = 1` before (R85, R86; that the beep is an output is decision D1). -/
def Obligations.TickCountsBothTimersDown : Prop :=
  ∀ s : State, s.tick.DT.toNat = s.DT.toNat - 1 ∧ s.tick.ST.toNat = s.ST.toNat - 1 ∧ (s.tick.beep = true ↔ s.ST.toNat = 1) ∧
    UnchangedBut [.DT, .ST, .beep] s s.tick

/-- In every cycle whose instruction does not write the timer, faulting cycles and waiting ones included, the timer counts down
by one or stays 0, and the cycle beeps exactly if ST was 1 (R85, R86; decision D16 for the spec's own faults). -/
def Obligations.TimersCountInEveryCycle : Prop :=
  ∀ s t, step s = .next t →
    ((∀ w x, s.mem.readWord s.pc.toNat = some w → decodeWord w ≠ .ok (.ldDTVx x)) → t.DT.toNat = s.DT.toNat - 1) ∧
    ((∀ w x, s.mem.readWord s.pc.toNat = some w → decodeWord w ≠ .ok (.ldSTVx x)) →
      t.ST.toNat = s.ST.toNat - 1 ∧ (t.beep = true ↔ s.ST.toNat = 1))

/-- A timer written by Fx15 or Fx18 is counted down by the tick of the same cycle: the cycle ends with `V[x] - 1`, or 0, and
Fx18 of 1 beeps in its own cycle (R184, R185, marked derived from R85). -/
def Obligations.WrittenTimersTickInTheSameCycle : Prop :=
  ∀ (s : State) (w : Word) (x : Nibble), s.mem.readWord s.pc.toNat = some w →
    (decodeWord w = .ok (.ldDTVx x) → ∃ t, step s = .next t ∧ t.DT.toNat = (s.getV x).toNat - 1) ∧
    (decodeWord w = .ok (.ldSTVx x) →
      ∃ t, step s = .next t ∧ t.ST.toNat = (s.getV x).toNat - 1 ∧ (t.beep = true ↔ (s.getV x).toNat = 1))

/-- R88: a cycle invoked with `halted = 1` does what it does with `halted = 0`, and leaves `halted = 1`. -/
def Obligations.HaltedIsNotTested : Prop :=
  ∀ s t : State, step (s.setHalted false) = .next t → step (s.setHalted true) = .next (t.setHalted true)

/-- `halted` is set by a cycle that returns a `diag`, and left alone by one that does not: the core never clears it (R20, R207;
the record is decision D16). -/
def Obligations.HaltedIsSetExactlyByFaults : Prop :=
  ∀ s t, step s = .next t → (t.diag ≠ none → t.halted = true) ∧ (t.diag = none → t.halted = s.halted)

/-- Faults are precise: a cycle that returns a `diag` has written nothing but `halted`, ir and pc, and ticked; the record names
the instruction's own address and `ir` (R200, R207; decision D16, log 1). -/
def Obligations.FaultsArePrecise : Prop :=
  ∀ s t d, step s = .next t → t.diag = some d →
    d.addr = s.pc ∧ d.word = t.ir ∧ t.DT.toNat = s.DT.toNat - 1 ∧ t.ST.toNat = s.ST.toNat - 1 ∧
    (d.fault = .fetchOutOfBounds → t.pc = s.pc ∧ t.ir = s.ir) ∧
    (d.fault ≠ .fetchOutOfBounds → t.pc.toNat = s.pc.toNat + 2 ∧ s.mem.readWord s.pc.toNat = some t.ir) ∧
    UnchangedBut [.halted, .diag, .ir, .pc, .DT, .ST, .beep, .rand, .randIdx] s t

/-- The table of R200: each fault comes from its own step and instructions, on its own condition, with its own info, so a cycle
raises at most one (R208). The five faults but DecodeFailure are decisions D4 to D8. -/
def Obligations.EachFaultHasItsCondition : Prop :=
  ∀ s t d, step s = .next t → t.diag = some d →
    match d.fault with
    | .decodeFailure => ∃ w, s.mem.readWord s.pc.toNat = some w ∧ wordLegal w = false ∧ d.info = w.toNat
    | .fetchOutOfBounds => 4094 < s.pc.toNat ∧ d.info = s.pc.toNat
    | .dataOutOfBounds => ∃ w i n, s.mem.readWord s.pc.toNat = some w ∧ decodeWord w = .ok i ∧ footprint i = some n ∧ 0 < n ∧
        4095 < s.I.toNat + n - 1 ∧ d.info = s.I.toNat + n - 1
    | .stackOverflow => ∃ w nnn, s.mem.readWord s.pc.toNat = some w ∧ decodeWord w = .ok (.call nnn) ∧ s.sp = 15 ∧ d.info = 0
    | .stackUnderflow => ∃ w, s.mem.readWord s.pc.toNat = some w ∧ decodeWord w = .ok .ret ∧ s.sp = 0 ∧ d.info = 0
    | .keyIndexOutOfRange => ∃ w x, s.mem.readWord s.pc.toNat = some w ∧
        (decodeWord w = .ok (.skp x) ∨ decodeWord w = .ok (.sknp x)) ∧ 15 < (s.getV x).toNat ∧ d.info = (s.getV x).toNat

/-- The table of R84: pc after a cycle whose word decodes, by instruction, and the post-fetch pc after a fault. The fault line
rests on decision D16. -/
def Obligations.PcAfterACycle : Prop :=
  ∀ (s t : State) (w : Word) (i : Instr), s.mem.readWord s.pc.toNat = some w → decodeWord w = .ok i → step s = .next t →
    (t.diag = none → t.pc = pcAfter s (s.pc + 2) i) ∧ (t.diag ≠ none → t.pc = s.pc + 2)

/-! ### Who writes what -/

/-- Every part of the state has only the writers its rule names (R10 to R22, R40, R42, R84): each general register only the
instructions that name it as destination or flag, pc only the transfers, skips and Fx0A; no instruction writes the key table or
`stack[0]`, none clears `draw_ready`, only Fx33 and Fx55 store to memory, and so on. `halted` and the output `diag` are written only
together, by a fault that writes nothing else, and `halted` only to 1 (R20, R207, decision D16, log 1). The model's own `rand`,
`randIdx` and `beep` are the cycle's (logs 2 and 3). That 00E0 leaves `draw_ready` alone is decision D15; that the sixteenth call
pushes nothing, so `stack[0]` is never written, is decision D4. -/
def Obligations.EachPartHasOnlyItsWriters : Prop :=
  ∀ i s t, exec i s = .next t →
    (∀ r, ¬writesRegister r i → t.getV r = s.getV r) ∧ (writesPc i = false → Part.same s t .pc) ∧
    ((Part.same s t .halted ∧ Part.same s t .diag) ∨ ∃ d, t = { s with halted := true, diag := some d }) ∧
    Part.same s t .rand ∧ Part.same s t .randIdx ∧ Part.same s t .beep ∧
    Part.same s t .key ∧ Part.same s t .ir ∧ t.getStack 0 = s.getStack 0 ∧ (s.drawReady = true → t.drawReady = true) ∧
    ((∀ x, i ≠ .ldB x ∧ i ≠ .ldMemVx x) → Part.same s t .mem) ∧
    (i ≠ .cls → (∀ x y n, i ≠ .drw x y n) → Part.same s t .FB) ∧
    ((∀ x y n, i ≠ .drw x y n) → Part.same s t .drawReady) ∧
    ((∀ nnn, i ≠ .call nnn) → Part.same s t .stack ∧ (i ≠ .ret → Part.same s t .sp)) ∧
    ((∀ nnn x, i ≠ .ldI nnn ∧ i ≠ .addI x ∧ i ≠ .ldF x) → Part.same s t .I) ∧
    ((∀ x, i ≠ .ldDTVx x) → Part.same s t .DT) ∧ ((∀ x, i ≠ .ldSTVx x) → Part.same s t .ST)

/-- "No other instruction writes VF as a side effect" (R11): outside the table's six, VF changes only where the instruction's own
destination is VF. -/
def Obligations.OnlySixInstructionsWriteVFAsAFlag : Prop :=
  ∀ i s t, exec i s = .next t → writesFlag i = false → destination i ≠ some 15 → t.getV 15 = s.getV 15

/-- `rand` is read by Cxkk and "every other instruction ignores" it (R131; that it is an input is decision D19, log 3). -/
def Obligations.OnlyRndReadsTheRandomByte : Prop :=
  ∀ i s t r, (∀ x kk, i ≠ .rnd x kk) → exec i s = .next t → exec i { s with rand := r } = .next { t with rand := r }

/-! ### Control transfer and register skips (41_flow_and_skip.md) -/

/-- 1nnn (R101): pc is the zero-extended `nnn`, nothing else changes. -/
def Obligations.JumpLoadsPc : Prop :=
  ∀ nnn s, ∃ t, exec (.jp nnn) s = .next t ∧ t.pc.toNat = nnn.toNat ∧ UnchangedBut [.pc] s t

/-- Bnnn (R107): only the low eight bits of `nnn + V[0]` reach pc. -/
def Obligations.ComputedJumpKeepsEightBits : Prop :=
  ∀ nnn s, ∃ t, exec (.jpV0 nnn) s = .next t ∧ t.pc.toNat = (nnn.toNat + (s.getV 0).toNat) % 256 ∧ UnchangedBut [.pc] s t

/-- 2nnn (41_flow_and_skip.md §1): below depth 15 the post-fetch pc goes to the cell above the old `sp`; at depth 15
StackOverflow, decision D4, and nothing is pushed. -/
def Obligations.CallPushesThePostFetchPc : Prop :=
  ∀ nnn s,
    (s.sp.toNat < 15 → ∃ t, exec (.call nnn) s = .next t ∧ t.sp.toNat = s.sp.toNat + 1 ∧ t.getStack t.sp = s.pc ∧
      (∀ k, k ≠ t.sp → t.getStack k = s.getStack k) ∧ t.pc.toNat = nnn.toNat ∧ UnchangedBut [.sp, .stack, .pc] s t) ∧
    (s.sp.toNat = 15 → ∃ t, exec (.call nnn) s = .next t ∧ t.halted = true ∧
      t.diag = some ⟨.stackOverflow, s.pc - 2, s.ir, 0⟩ ∧ UnchangedBut [.halted, .diag] s t)

/-- 00EE (41_flow_and_skip.md §1): pc from the cell `sp` names, which is not cleared; with no call outstanding StackUnderflow,
decision D5, and nothing is popped. -/
def Obligations.ReturnPopsThePc : Prop :=
  ∀ s,
    (0 < s.sp.toNat → ∃ t, exec .ret s = .next t ∧ t.pc = s.getStack s.sp ∧ t.sp.toNat = s.sp.toNat - 1 ∧
      UnchangedBut [.sp, .pc] s t) ∧
    (s.sp.toNat = 0 → ∃ t, exec .ret s = .next t ∧ t.halted = true ∧
      t.diag = some ⟨.stackUnderflow, s.pc - 2, s.ir, 0⟩ ∧ UnchangedBut [.halted, .diag] s t)

/-- A return after a call resumes at the address after the call with the old depth, whatever the subroutine did to the rest of the
state as long as it left `sp` and the pushed cell alone (R100, R102; within the depth of decision D4). -/
def Obligations.ReturnResumesAfterTheCall : Prop :=
  ∀ (nnn : Addr12) (s t u : State), s.sp.toNat < 15 → exec (.call nnn) s = .next t → u.sp = t.sp → u.getStack t.sp = t.getStack t.sp →
    ∃ v, exec .ret u = .next v ∧ v.pc = s.pc ∧ v.sp = s.sp

/-- 3xkk, 4xkk, 5xy0, 9xy0 (R103 to R106): 2 is added to the post-fetch pc exactly if the condition holds, nothing else changes. -/
def Obligations.RegisterSkips : Prop :=
  ∀ x y kk s,
    (∃ t, exec (.seImm x kk) s = .next t ∧ t.pc = (if s.getV x = kk then s.pc + 2 else s.pc) ∧ UnchangedBut [.pc] s t) ∧
    (∃ t, exec (.sneImm x kk) s = .next t ∧ t.pc = (if s.getV x ≠ kk then s.pc + 2 else s.pc) ∧ UnchangedBut [.pc] s t) ∧
    (∃ t, exec (.seReg x y) s = .next t ∧ t.pc = (if s.getV x = s.getV y then s.pc + 2 else s.pc) ∧ UnchangedBut [.pc] s t) ∧
    (∃ t, exec (.sneReg x y) s = .next t ∧ t.pc = (if s.getV x ≠ s.getV y then s.pc + 2 else s.pc) ∧ UnchangedBut [.pc] s t)

/-! ### Arithmetic and logic (42_alu.md) -/

/-- 6xkk and 8xy0 (R120, R122): the register takes the immediate, or the other register; no other register and no other part changes. -/
def Obligations.LoadsAndMoves : Prop :=
  ∀ x y kk s,
    (∃ t, exec (.ldImm x kk) s = .next t ∧ t.getV x = kk ∧ (∀ r, r ≠ x → t.getV r = s.getV r) ∧ UnchangedBut [.V] s t) ∧
    (∃ t, exec (.ldReg x y) s = .next t ∧ t.getV x = s.getV y ∧ (∀ r, r ≠ x → t.getV r = s.getV r) ∧ UnchangedBut [.V] s t)

/-- 7xkk (R121): the sum modulo 256, and no flag: VF is an ordinary register here. -/
def Obligations.AddImmediateWrapsWithoutFlag : Prop :=
  ∀ x kk s, ∃ t, exec (.addImm x kk) s = .next t ∧ (t.getV x).toNat = ((s.getV x).toNat + kk.toNat) % 256 ∧
    (∀ r, r ≠ x → t.getV r = s.getV r) ∧ UnchangedBut [.V] s t

/-- 8xy1, 8xy2, 8xy3 (R123, R124, R125): bit by bit, each of the 8 bits, and VF unchanged unless it is the destination. -/
def Obligations.LogicIsBitwiseWithoutFlag : Prop :=
  ∀ x y s,
    (∃ t, exec (.orReg x y) s = .next t ∧
      (∀ j, j < 8 → (t.getV x).getLsbD j = ((s.getV x).getLsbD j || (s.getV y).getLsbD j)) ∧
      (∀ r, r ≠ x → t.getV r = s.getV r) ∧ UnchangedBut [.V] s t) ∧
    (∃ t, exec (.andReg x y) s = .next t ∧
      (∀ j, j < 8 → (t.getV x).getLsbD j = ((s.getV x).getLsbD j && (s.getV y).getLsbD j)) ∧
      (∀ r, r ≠ x → t.getV r = s.getV r) ∧ UnchangedBut [.V] s t) ∧
    (∃ t, exec (.xorReg x y) s = .next t ∧
      (∀ j, j < 8 → (t.getV x).getLsbD j = ((s.getV x).getLsbD j != (s.getV y).getLsbD j)) ∧
      (∀ r, r ≠ x → t.getV r = s.getV r) ∧ UnchangedBut [.V] s t)

/-- 8xy4 (42_alu.md §3): the sum modulo 256 and the carry in VF; with x = 15 the result overwrites the flag (decision D12, log 8). -/
def Obligations.AddSetsTheCarry : Prop :=
  ∀ x y s, ∃ t, exec (.addReg x y) s = .next t ∧
    (t.getV x).toNat = ((s.getV x).toNat + (s.getV y).toNat) % 256 ∧
    (x ≠ 15 → t.getV 15 = oneIf ((s.getV x).toNat + (s.getV y).toNat > 255)) ∧
    (∀ r, r ≠ x → r ≠ 15 → t.getV r = s.getV r) ∧ UnchangedBut [.V] s t

/-- 8xy5 (42_alu.md §3): f is 0 if `V[y] > V[x]` else 1; the difference is of the registers as writing f to VF left them, which shows
only when x or y is 15 (decision D12, log 8). -/
def Obligations.SubtractSetsNotBorrow : Prop :=
  ∀ x y s, ∃ t, exec (.subReg x y) s = .next t ∧
    (let f := oneIf ¬((s.getV y).toNat > (s.getV x).toNat)
     let a := if x = 15 then f else s.getV x
     let b := if y = 15 then f else s.getV y
     (t.getV x).toNat = (a.toNat + 256 - b.toNat) % 256 ∧ (x ≠ 15 → t.getV 15 = f)) ∧
    (∀ r, r ≠ x → r ≠ 15 → t.getV r = s.getV r) ∧ UnchangedBut [.V] s t

/-- 8xy7 (42_alu.md §3): f is 1 if `V[y] > V[x]` strictly else 0, so equal operands give 0 (conflict C2); the difference is of the
registers as writing f to VF left them, which shows only when x or y is 15 (decision D12, log 8). -/
def Obligations.ReverseSubtractIsStrict : Prop :=
  ∀ x y s, ∃ t, exec (.subn x y) s = .next t ∧
    (let f := oneIf ((s.getV y).toNat > (s.getV x).toNat)
     let a := if x = 15 then f else s.getV x
     let b := if y = 15 then f else s.getV y
     (t.getV x).toNat = (b.toNat + 256 - a.toNat) % 256 ∧ (x ≠ 15 → t.getV 15 = f)) ∧
    (∀ r, r ≠ x → r ≠ 15 → t.getV r = s.getV r) ∧ UnchangedBut [.V] s t

/-- 8xy6 and 8xyE (42_alu.md §3): VF is the bit shifted out, the register moves by one bit and is filled with 0, `y` is ignored;
with x = 15 the flag just written is what is shifted (decision D12, log 8). -/
def Obligations.ShiftsMoveOneBit : Prop :=
  ∀ x y s,
    (∃ t, exec (.shr x y) s = .next t ∧
      (x ≠ 15 → (t.getV x).toNat = (s.getV x).toNat / 2 ∧ (t.getV 15).toNat = (s.getV x).toNat % 2) ∧
      (x = 15 → t.getV 15 = 0) ∧ (∀ r, r ≠ x → r ≠ 15 → t.getV r = s.getV r) ∧ UnchangedBut [.V] s t) ∧
    (∃ t, exec (.shl x y) s = .next t ∧
      (x ≠ 15 → (t.getV x).toNat = (s.getV x).toNat * 2 % 256 ∧ (t.getV 15).toNat = (s.getV x).toNat / 128) ∧
      (x = 15 → (t.getV 15).toNat = 2 * ((s.getV 15).toNat / 128)) ∧
      (∀ r, r ≠ x → r ≠ 15 → t.getV r = s.getV r) ∧ UnchangedBut [.V] s t)

/-- Cxkk (42_alu.md §4): the result is the cycle's random byte under the mask, for every byte: bit j is set exactly if it is set in
both (that `rand` is an input of the cycle is decision D19, log 3). The last clause: `RUN_CYCLE(rand)` gives that byte to Cxkk. -/
def Obligations.RandomByteIsMasked : Prop :=
  ∀ x kk s,
    (∃ t, exec (.rnd x kk) s = .next t ∧ (∀ j, j < 8 → (t.getV x).getLsbD j = (s.rand.getLsbD j && kk.getLsbD j)) ∧
      (∀ r, r ≠ x → t.getV r = s.getV r) ∧ UnchangedBut [.V] s t) ∧
    ∀ w rand, s.mem.readWord s.pc.toNat = some w → decodeWord w = .ok (.rnd x kk) →
      ∃ t, runCycle rand s = .next t ∧ t.getV x = rand &&& kk

/-! ### Address register and memory (43_index_memory.md) -/

/-- Annn, Fx1E, Fx29 (R140, R141, R142): `I` is `nnn`; `(I + V[x]) mod 4096`; `V[x] * 5` with all 8 bits of `V[x]`. Nothing else
changes, VF included. -/
def Obligations.AddressRegisterWrites : Prop :=
  ∀ nnn x s,
    (∃ t, exec (.ldI nnn) s = .next t ∧ t.I.toNat = nnn.toNat ∧ UnchangedBut [.I] s t) ∧
    (∃ t, exec (.addI x) s = .next t ∧ t.I.toNat = (s.I.toNat + (s.getV x).toNat) % 4096 ∧ UnchangedBut [.I] s t) ∧
    (∃ t, exec (.ldF x) s = .next t ∧ t.I.toNat = (s.getV x).toNat * 5 ∧ UnchangedBut [.I] s t)

/-- Fx33 (43_index_memory.md §2): hundreds, tens and ones at `I`, `I+1`, `I+2`, every other byte unchanged (the intended digits are
decision D10, the bound D6; logs 7 and 16). -/
def Obligations.DecimalDigitsAreStored : Prop :=
  ∀ (x : Nibble) (s : State), s.mem.wf = true → s.I.toNat + 2 ≤ 4095 →
    ∃ t, exec (.ldB x) s = .next t ∧ (t.mem.read s.I.toNat).toNat = (s.getV x).toNat / 100 ∧
      (t.mem.read (s.I.toNat + 1)).toNat = (s.getV x).toNat / 10 % 10 ∧
      (t.mem.read (s.I.toNat + 2)).toNat = (s.getV x).toNat % 10 ∧
      (∀ a, a < s.I.toNat ∨ s.I.toNat + 3 ≤ a → t.mem.read a = s.mem.read a) ∧ UnchangedBut [.mem] s t

/-- Fx55 (43_index_memory.md §2): `V[0]..V[x]` at `I..I+x`, every other byte unchanged, and `I` unchanged (decision D26; the bound
is D6; log 17). -/
def Obligations.RegistersAreStored : Prop :=
  ∀ (x : Nibble) (s : State), s.mem.wf = true → s.I.toNat + x.toNat ≤ 4095 →
    ∃ t, exec (.ldMemVx x) s = .next t ∧ (∀ r : Nibble, r.toNat ≤ x.toNat → t.mem.read (s.I.toNat + r.toNat) = s.getV r) ∧
      (∀ a, a < s.I.toNat ∨ s.I.toNat + x.toNat + 1 ≤ a → t.mem.read a = s.mem.read a) ∧ UnchangedBut [.mem] s t

/-- Fx65 (43_index_memory.md §2): `V[0]..V[x]` from `I..I+x`, the registers above x unchanged, and `I` unchanged (decision D26;
the bound is D6; log 17). -/
def Obligations.RegistersAreLoaded : Prop :=
  ∀ (x : Nibble) (s : State), s.I.toNat + x.toNat ≤ 4095 →
    ∃ t, exec (.ldVxMem x) s = .next t ∧ (∀ r : Nibble, r.toNat ≤ x.toNat → t.getV r = s.mem.read (s.I.toNat + r.toNat)) ∧
      (∀ r : Nibble, x.toNat < r.toNat → t.getV r = s.getV r) ∧ UnchangedBut [.V] s t

/-- The source's round trip (SP4, 95_test_vectors.md): Fx55 then Fx65 with the same x and, between them, the same `I` and memory
restores `V[0]..V[x]`, whatever the registers held meanwhile (`I` unchanged is decision D26). -/
def Obligations.StoreThenLoadRestoresRegisters : Prop :=
  ∀ (x : Nibble) (s t u : State), s.mem.wf = true → s.I.toNat + x.toNat ≤ 4095 → exec (.ldMemVx x) s = .next t → u.mem = t.mem → u.I = t.I →
    ∃ v, exec (.ldVxMem x) u = .next v ∧ ∀ r : Nibble, r.toNat ≤ x.toNat → v.getV r = s.getV r

/-- Dxyn, Fx33, Fx55, Fx65 whose last address is above 4095 take DataOutOfBounds with that address and change nothing else
(60_exceptions.md §1; decision D6, log 7). -/
def Obligations.FootprintPastTheEndFaults : Prop :=
  ∀ (i : Instr) (s : State) (n : Nat), footprint i = some n → 0 < n → 4095 < s.I.toNat + n - 1 →
    exec i s = .next { s with halted := true, diag := some ⟨.dataOutOfBounds, s.pc - 2, s.ir, s.I.toNat + n - 1⟩ }

/-- A word stored by Fx55 over the next instruction is the word the next cycle runs (R51, marked derived). -/
def Obligations.StoredWordIsFetchedNext : Prop :=
  ∀ (x : Nibble) (s t : State) (i : Instr), s.mem.wf = true → s.I.toNat + x.toNat ≤ 4095 → exec (.ldMemVx x) s = .next t →
    s.I.toNat ≤ s.pc.toNat → s.pc.toNat + 1 ≤ s.I.toNat + x.toNat →
    decodeWord (s.getV (BitVec.ofNat 4 (s.pc.toNat - s.I.toNat)) ++ s.getV (BitVec.ofNat 4 (s.pc.toNat + 1 - s.I.toNat))) = .ok i →
    step t.tick = thenTick (exec i (afterFetch t.tick
      (s.getV (BitVec.ofNat 4 (s.pc.toNat - s.I.toNat)) ++ s.getV (BitVec.ofNat 4 (s.pc.toNat + 1 - s.I.toNat)))))

/-! ### Display (44_display.md) -/

/-- 00E0 (44_display.md §2): all cells 0; VF and `draw_ready` unchanged (decision D15, log 15). -/
def Obligations.ClearBlanksTheScreen : Prop :=
  ∀ s, ∃ t, exec .cls s = .next t ∧ (∀ k, t.pixel k = false) ∧ UnchangedBut [.FB] s t

/-- Dxyn (44_display.md §3) whose bytes lie in memory: each cell is XORed with the clipped sprite, VF is 1 exactly if a set cell was
covered, `draw_ready` is set, no other register changes. The bound is decision D6; reading VF as a coordinate before it is
written, and plain coordinate sums, are decision D13 (log 10). -/
def Obligations.DrawXorsTheClippedSprite : Prop :=
  ∀ (x y n : Nibble) (s : State), (n.toNat = 0 ∨ s.I.toNat + n.toNat - 1 ≤ 4095) →
    ∃ t, exec (.drw x y n) s = .next t ∧
      (∀ k, t.pixel k = true ↔ ¬(s.pixel k = true ↔ Covers s x y n k)) ∧
      ((∃ k, s.pixel k = true ∧ Covers s x y n k) → t.getV 15 = 1) ∧
      ((¬∃ k, s.pixel k = true ∧ Covers s x y n k) → t.getV 15 = 0) ∧
      t.drawReady = true ∧ (∀ r, r ≠ 15 → t.getV r = s.getV r) ∧ UnchangedBut [.V, .FB, .drawReady] s t

/-- The source's collision property (SP5, 95_test_vectors.md): drawing the same sprite twice restores the framebuffer, and the second
draw reports 1 exactly if the first one set a pixel. VF is not a coordinate here, since the first draw writes it. -/
def Obligations.DrawingTwiceRestoresTheScreen : Prop :=
  ∀ (x y n : Nibble) (s t : State), x ≠ 15 → y ≠ 15 → (n.toNat = 0 ∨ s.I.toNat + n.toNat - 1 ≤ 4095) → exec (.drw x y n) s = .next t →
    ∃ u, exec (.drw x y n) t = .next u ∧ (∀ k, u.pixel k = s.pixel k) ∧
      (u.getV 15 = 1 ↔ ∃ k, s.pixel k = false ∧ t.pixel k = true)

/-! ### Keys and timers (45_keys_timers.md) -/

/-- Ex9E and ExA1 (45_keys_timers.md §1): with `V[x]` in 0..15 the skip is taken exactly if that key is held, or not held; with
`V[x] > 15` KeyIndexOutOfRange, decision D8, and no skip. -/
def Obligations.KeySkips : Prop :=
  ∀ x s,
    ((s.getV x).toNat ≤ 15 →
      (∃ t, exec (.skp x) s = .next t ∧ t.pc = (if s.keyHeld (s.getV x).toNat = true then s.pc + 2 else s.pc) ∧
        UnchangedBut [.pc] s t) ∧
      (∃ t, exec (.sknp x) s = .next t ∧ t.pc = (if s.keyHeld (s.getV x).toNat = false then s.pc + 2 else s.pc) ∧
        UnchangedBut [.pc] s t)) ∧
    (15 < (s.getV x).toNat → ∀ i, (i = .skp x ∨ i = .sknp x) →
      ∃ t, exec i s = .next t ∧ t.halted = true ∧ t.diag = some ⟨.keyIndexOutOfRange, s.pc - 2, s.ir, (s.getV x).toNat⟩ ∧
        UnchangedBut [.halted, .diag] s t)

/-- Fx0A (45_keys_timers.md §2): with no key held pc goes back to the instruction and nothing else changes; otherwise the lowest
held key (decision D11, log 18) goes to `V[x]` and pc stays after the instruction. -/
def Obligations.KeyWait : Prop :=
  ∀ x s,
    ((∀ k, k < 16 → s.keyHeld k = false) → ∃ t, exec (.ldVxK x) s = .next t ∧ t.pc = s.pc - 2 ∧ UnchangedBut [.pc] s t) ∧
    ∀ k, k < 16 → s.keyHeld k = true → (∀ j, j < k → s.keyHeld j = false) →
      ∃ t, exec (.ldVxK x) s = .next t ∧ (t.getV x).toNat = k ∧ (∀ r, r ≠ x → t.getV r = s.getV r) ∧ UnchangedBut [.V] s t

/-- Fx07, Fx15, Fx18 (45_keys_timers.md §3): the register takes DT, DT or ST takes the register, nothing else changes. -/
def Obligations.TimerAccess : Prop :=
  ∀ x s,
    (∃ t, exec (.ldVxDT x) s = .next t ∧ t.getV x = s.DT ∧ (∀ r, r ≠ x → t.getV r = s.getV r) ∧ UnchangedBut [.V] s t) ∧
    (∃ t, exec (.ldDTVx x) s = .next t ∧ t.DT = s.getV x ∧ UnchangedBut [.DT] s t) ∧
    (∃ t, exec (.ldSTVx x) s = .next t ∧ t.ST = s.getV x ∧ UnchangedBut [.ST] s t)

/-! ### The host -/

/-- LOAD (70_reset_and_hazards.md §2; decisions D17 and D18, log 13): at most 3584 bytes stand from address 512 in a reset machine;
a longer sequence is refused. -/
def Obligations.LoadPlacesTheProgram : Prop :=
  ∀ bytes s,
    (bytes.length ≤ 3584 → ∃ t, perform (.load bytes) s = .next (t, .done) ∧
      (∀ k (h : k < bytes.length), t.mem.read (512 + k) = bytes[k]) ∧
      (∀ a, a < 512 ∨ 512 + bytes.length ≤ a → t.mem.read a = 0) ∧ UnchangedBut [.mem, .randIdx] State.reset t) ∧
    (3584 < bytes.length → perform (.load bytes) s = .refused .loadTooLong)

/-- SET_KEY, SET_DRAW_READY, SET_HALTED write their one flag and nothing else; SET_KEY above 15 is refused (60_exceptions.md §7;
decisions D1 and D21, log 13). -/
def Obligations.HostWritesTouchOneFlag : Prop :=
  ∀ k b s,
    (k ≤ 15 → ∃ t, perform (.setKey k b) s = .next (t, .done) ∧ t.keyHeld k = b ∧ (∀ j, j ≠ k → t.keyHeld j = s.keyHeld j) ∧
      UnchangedBut [.key] s t) ∧
    (15 < k → perform (.setKey k b) s = .refused .keyIndexTooLarge) ∧
    (∃ t, perform (.setDrawReady b) s = .next (t, .done) ∧ t.drawReady = b ∧ UnchangedBut [.drawReady] s t) ∧
    (∃ t, perform (.setHalted b) s = .next (t, .done) ∧ t.halted = b ∧ UnchangedBut [.halted] s t)

/-- Before the first RESET or LOAD every other operation is refused, and those two give the state they always give (10_state.md §9;
decision D17, log 12). -/
def Obligations.NothingRunsBeforeTheFirstReset : Prop :=
  performFromPower .reset none = .next (State.reset, .done) ∧
  (∀ bytes, performFromPower (.load bytes) none = perform (.load bytes) State.reset) ∧
  ∀ op, op ≠ .reset → (∀ bytes, op ≠ .load bytes) → performFromPower op none = .refused .beforeFirstReset

/-- The jump-to-self end of a program (R89, marked derived; log 6): once parked, every cycle leaves the machine parked and changes
nothing but the timers, `ir` and the cycle's own inputs and outputs. -/
def Obligations.ParkedMachineStaysParked : Prop :=
  ∀ s, parked s = true → ∃ t, step s = .next t ∧ parked t = true ∧ t.diag = none ∧
    UnchangedBut [.DT, .ST, .ir, .beep, .diag, .rand, .randIdx] s t

/-- The model's `withFetchWord` does what it is for (log 11): the very next step runs the instruction whose word it places. -/
def Obligations.PlacedWordRunsNext : Prop :=
  ∀ (i : Instr) (s : State), s.mem.wf = true →
    step (s.withFetchWord 16 (encode i).toNat) =
      thenTick (exec i (afterFetch (s.withFetchWord 16 (encode i).toNat) (encode i)))
end

