-- ==== Sys2Proof/Laws/State.lean ====
section
/-! SUPPORT. One lemma per field per update of State, so that no later proof unfolds a record update, and the reads of registers,
stack, keys and pixels after each. -/

namespace Sys2Proof.Machine

/-! ### setV -/

@[simp] theorem State.setV_V (s : State) (x : Nibble) (v : Byte) : (s.setV x v).V = s.V.set x.toNat v x.isLt := rfl
@[simp] theorem State.setV_I (s : State) (x : Nibble) (v : Byte) : (s.setV x v).I = s.I := rfl
@[simp] theorem State.setV_pc (s : State) (x : Nibble) (v : Byte) : (s.setV x v).pc = s.pc := rfl
@[simp] theorem State.setV_stack (s : State) (x : Nibble) (v : Byte) : (s.setV x v).stack = s.stack := rfl
@[simp] theorem State.setV_sp (s : State) (x : Nibble) (v : Byte) : (s.setV x v).sp = s.sp := rfl
@[simp] theorem State.setV_DT (s : State) (x : Nibble) (v : Byte) : (s.setV x v).DT = s.DT := rfl
@[simp] theorem State.setV_ST (s : State) (x : Nibble) (v : Byte) : (s.setV x v).ST = s.ST := rfl
@[simp] theorem State.setV_FB (s : State) (x : Nibble) (v : Byte) : (s.setV x v).FB = s.FB := rfl
@[simp] theorem State.setV_key (s : State) (x : Nibble) (v : Byte) : (s.setV x v).key = s.key := rfl
@[simp] theorem State.setV_halted (s : State) (x : Nibble) (v : Byte) : (s.setV x v).halted = s.halted := rfl
@[simp] theorem State.setV_drawReady (s : State) (x : Nibble) (v : Byte) : (s.setV x v).drawReady = s.drawReady := rfl
@[simp] theorem State.setV_ir (s : State) (x : Nibble) (v : Byte) : (s.setV x v).ir = s.ir := rfl
@[simp] theorem State.setV_mem (s : State) (x : Nibble) (v : Byte) : (s.setV x v).mem = s.mem := rfl
@[simp] theorem State.setV_rand (s : State) (x : Nibble) (v : Byte) : (s.setV x v).rand = s.rand := rfl
@[simp] theorem State.setV_randIdx (s : State) (x : Nibble) (v : Byte) : (s.setV x v).randIdx = s.randIdx := rfl
@[simp] theorem State.setV_beep (s : State) (x : Nibble) (v : Byte) : (s.setV x v).beep = s.beep := rfl
@[simp] theorem State.setV_diag (s : State) (x : Nibble) (v : Byte) : (s.setV x v).diag = s.diag := rfl

@[simp] theorem State.setV_getStack (s : State) (x : Nibble) (v : Byte) (r : Nibble) : (s.setV x v).getStack r = s.getStack r := rfl
@[simp] theorem State.setV_keyHeld (s : State) (x : Nibble) (v : Byte) (r : Nat) : (s.setV x v).keyHeld r = s.keyHeld r := rfl
@[simp] theorem State.setV_pixel (s : State) (x : Nibble) (v : Byte) (r : Nat) : (s.setV x v).pixel r = s.pixel r := rfl

/-! ### setStack -/

@[simp] theorem State.setStack_V (s : State) (k : Nibble) (w : Word) : (s.setStack k w).V = s.V := rfl
@[simp] theorem State.setStack_I (s : State) (k : Nibble) (w : Word) : (s.setStack k w).I = s.I := rfl
@[simp] theorem State.setStack_pc (s : State) (k : Nibble) (w : Word) : (s.setStack k w).pc = s.pc := rfl
@[simp] theorem State.setStack_stack (s : State) (k : Nibble) (w : Word) : (s.setStack k w).stack = s.stack.set k.toNat w k.isLt := rfl
@[simp] theorem State.setStack_sp (s : State) (k : Nibble) (w : Word) : (s.setStack k w).sp = s.sp := rfl
@[simp] theorem State.setStack_DT (s : State) (k : Nibble) (w : Word) : (s.setStack k w).DT = s.DT := rfl
@[simp] theorem State.setStack_ST (s : State) (k : Nibble) (w : Word) : (s.setStack k w).ST = s.ST := rfl
@[simp] theorem State.setStack_FB (s : State) (k : Nibble) (w : Word) : (s.setStack k w).FB = s.FB := rfl
@[simp] theorem State.setStack_key (s : State) (k : Nibble) (w : Word) : (s.setStack k w).key = s.key := rfl
@[simp] theorem State.setStack_halted (s : State) (k : Nibble) (w : Word) : (s.setStack k w).halted = s.halted := rfl
@[simp] theorem State.setStack_drawReady (s : State) (k : Nibble) (w : Word) : (s.setStack k w).drawReady = s.drawReady := rfl
@[simp] theorem State.setStack_ir (s : State) (k : Nibble) (w : Word) : (s.setStack k w).ir = s.ir := rfl
@[simp] theorem State.setStack_mem (s : State) (k : Nibble) (w : Word) : (s.setStack k w).mem = s.mem := rfl
@[simp] theorem State.setStack_rand (s : State) (k : Nibble) (w : Word) : (s.setStack k w).rand = s.rand := rfl
@[simp] theorem State.setStack_randIdx (s : State) (k : Nibble) (w : Word) : (s.setStack k w).randIdx = s.randIdx := rfl
@[simp] theorem State.setStack_beep (s : State) (k : Nibble) (w : Word) : (s.setStack k w).beep = s.beep := rfl
@[simp] theorem State.setStack_diag (s : State) (k : Nibble) (w : Word) : (s.setStack k w).diag = s.diag := rfl

@[simp] theorem State.setStack_getV (s : State) (k : Nibble) (w : Word) (r : Nibble) : (s.setStack k w).getV r = s.getV r := rfl
@[simp] theorem State.setStack_keyHeld (s : State) (k : Nibble) (w : Word) (r : Nat) : (s.setStack k w).keyHeld r = s.keyHeld r := rfl
@[simp] theorem State.setStack_pixel (s : State) (k : Nibble) (w : Word) (r : Nat) : (s.setStack k w).pixel r = s.pixel r := rfl
@[simp] theorem State.setStack_keyIndex (s : State) (k : Nibble) (w : Word) (r : Nibble) : (s.setStack k w).keyIndex r = s.keyIndex r := rfl

/-! ### setKey -/

@[simp] theorem State.setKey_V (s : State) (k : Nibble) (b : Bool) : (s.setKey k b).V = s.V := rfl
@[simp] theorem State.setKey_I (s : State) (k : Nibble) (b : Bool) : (s.setKey k b).I = s.I := rfl
@[simp] theorem State.setKey_pc (s : State) (k : Nibble) (b : Bool) : (s.setKey k b).pc = s.pc := rfl
@[simp] theorem State.setKey_stack (s : State) (k : Nibble) (b : Bool) : (s.setKey k b).stack = s.stack := rfl
@[simp] theorem State.setKey_sp (s : State) (k : Nibble) (b : Bool) : (s.setKey k b).sp = s.sp := rfl
@[simp] theorem State.setKey_DT (s : State) (k : Nibble) (b : Bool) : (s.setKey k b).DT = s.DT := rfl
@[simp] theorem State.setKey_ST (s : State) (k : Nibble) (b : Bool) : (s.setKey k b).ST = s.ST := rfl
@[simp] theorem State.setKey_FB (s : State) (k : Nibble) (b : Bool) : (s.setKey k b).FB = s.FB := rfl
@[simp] theorem State.setKey_key (s : State) (k : Nibble) (b : Bool) : (s.setKey k b).key = s.key.set k.toNat b k.isLt := rfl
@[simp] theorem State.setKey_halted (s : State) (k : Nibble) (b : Bool) : (s.setKey k b).halted = s.halted := rfl
@[simp] theorem State.setKey_drawReady (s : State) (k : Nibble) (b : Bool) : (s.setKey k b).drawReady = s.drawReady := rfl
@[simp] theorem State.setKey_ir (s : State) (k : Nibble) (b : Bool) : (s.setKey k b).ir = s.ir := rfl
@[simp] theorem State.setKey_mem (s : State) (k : Nibble) (b : Bool) : (s.setKey k b).mem = s.mem := rfl
@[simp] theorem State.setKey_rand (s : State) (k : Nibble) (b : Bool) : (s.setKey k b).rand = s.rand := rfl
@[simp] theorem State.setKey_randIdx (s : State) (k : Nibble) (b : Bool) : (s.setKey k b).randIdx = s.randIdx := rfl
@[simp] theorem State.setKey_beep (s : State) (k : Nibble) (b : Bool) : (s.setKey k b).beep = s.beep := rfl
@[simp] theorem State.setKey_diag (s : State) (k : Nibble) (b : Bool) : (s.setKey k b).diag = s.diag := rfl

@[simp] theorem State.setKey_getV (s : State) (k : Nibble) (b : Bool) (r : Nibble) : (s.setKey k b).getV r = s.getV r := rfl
@[simp] theorem State.setKey_getStack (s : State) (k : Nibble) (b : Bool) (r : Nibble) : (s.setKey k b).getStack r = s.getStack r := rfl
@[simp] theorem State.setKey_pixel (s : State) (k : Nibble) (b : Bool) (r : Nat) : (s.setKey k b).pixel r = s.pixel r := rfl
@[simp] theorem State.setKey_keyIndex (s : State) (k : Nibble) (b : Bool) (r : Nibble) : (s.setKey k b).keyIndex r = s.keyIndex r := rfl

/-! ### jumpTo -/

@[simp] theorem State.jumpTo_V (s : State) (a : Word) : (s.jumpTo a).V = s.V := rfl
@[simp] theorem State.jumpTo_I (s : State) (a : Word) : (s.jumpTo a).I = s.I := rfl
@[simp] theorem State.jumpTo_pc (s : State) (a : Word) : (s.jumpTo a).pc = a := rfl
@[simp] theorem State.jumpTo_stack (s : State) (a : Word) : (s.jumpTo a).stack = s.stack := rfl
@[simp] theorem State.jumpTo_sp (s : State) (a : Word) : (s.jumpTo a).sp = s.sp := rfl
@[simp] theorem State.jumpTo_DT (s : State) (a : Word) : (s.jumpTo a).DT = s.DT := rfl
@[simp] theorem State.jumpTo_ST (s : State) (a : Word) : (s.jumpTo a).ST = s.ST := rfl
@[simp] theorem State.jumpTo_FB (s : State) (a : Word) : (s.jumpTo a).FB = s.FB := rfl
@[simp] theorem State.jumpTo_key (s : State) (a : Word) : (s.jumpTo a).key = s.key := rfl
@[simp] theorem State.jumpTo_halted (s : State) (a : Word) : (s.jumpTo a).halted = s.halted := rfl
@[simp] theorem State.jumpTo_drawReady (s : State) (a : Word) : (s.jumpTo a).drawReady = s.drawReady := rfl
@[simp] theorem State.jumpTo_ir (s : State) (a : Word) : (s.jumpTo a).ir = s.ir := rfl
@[simp] theorem State.jumpTo_mem (s : State) (a : Word) : (s.jumpTo a).mem = s.mem := rfl
@[simp] theorem State.jumpTo_rand (s : State) (a : Word) : (s.jumpTo a).rand = s.rand := rfl
@[simp] theorem State.jumpTo_randIdx (s : State) (a : Word) : (s.jumpTo a).randIdx = s.randIdx := rfl
@[simp] theorem State.jumpTo_beep (s : State) (a : Word) : (s.jumpTo a).beep = s.beep := rfl
@[simp] theorem State.jumpTo_diag (s : State) (a : Word) : (s.jumpTo a).diag = s.diag := rfl

@[simp] theorem State.jumpTo_getV (s : State) (a : Word) (r : Nibble) : (s.jumpTo a).getV r = s.getV r := rfl
@[simp] theorem State.jumpTo_getStack (s : State) (a : Word) (r : Nibble) : (s.jumpTo a).getStack r = s.getStack r := rfl
@[simp] theorem State.jumpTo_keyHeld (s : State) (a : Word) (r : Nat) : (s.jumpTo a).keyHeld r = s.keyHeld r := rfl
@[simp] theorem State.jumpTo_pixel (s : State) (a : Word) (r : Nat) : (s.jumpTo a).pixel r = s.pixel r := rfl
@[simp] theorem State.jumpTo_keyIndex (s : State) (a : Word) (r : Nibble) : (s.jumpTo a).keyIndex r = s.keyIndex r := rfl

/-! ### skipIf -/

@[simp] theorem State.skipIf_V (s : State) (c : Bool) : (s.skipIf c).V = s.V := by
  unfold State.skipIf; split <;> rfl
@[simp] theorem State.skipIf_I (s : State) (c : Bool) : (s.skipIf c).I = s.I := by
  unfold State.skipIf; split <;> rfl
@[simp] theorem State.skipIf_pc (s : State) (c : Bool) : (s.skipIf c).pc = if c then s.pc + 2 else s.pc := by
  unfold State.skipIf; split <;> rfl
@[simp] theorem State.skipIf_stack (s : State) (c : Bool) : (s.skipIf c).stack = s.stack := by
  unfold State.skipIf; split <;> rfl
@[simp] theorem State.skipIf_sp (s : State) (c : Bool) : (s.skipIf c).sp = s.sp := by
  unfold State.skipIf; split <;> rfl
@[simp] theorem State.skipIf_DT (s : State) (c : Bool) : (s.skipIf c).DT = s.DT := by
  unfold State.skipIf; split <;> rfl
@[simp] theorem State.skipIf_ST (s : State) (c : Bool) : (s.skipIf c).ST = s.ST := by
  unfold State.skipIf; split <;> rfl
@[simp] theorem State.skipIf_FB (s : State) (c : Bool) : (s.skipIf c).FB = s.FB := by
  unfold State.skipIf; split <;> rfl
@[simp] theorem State.skipIf_key (s : State) (c : Bool) : (s.skipIf c).key = s.key := by
  unfold State.skipIf; split <;> rfl
@[simp] theorem State.skipIf_halted (s : State) (c : Bool) : (s.skipIf c).halted = s.halted := by
  unfold State.skipIf; split <;> rfl
@[simp] theorem State.skipIf_drawReady (s : State) (c : Bool) : (s.skipIf c).drawReady = s.drawReady := by
  unfold State.skipIf; split <;> rfl
@[simp] theorem State.skipIf_ir (s : State) (c : Bool) : (s.skipIf c).ir = s.ir := by
  unfold State.skipIf; split <;> rfl
@[simp] theorem State.skipIf_mem (s : State) (c : Bool) : (s.skipIf c).mem = s.mem := by
  unfold State.skipIf; split <;> rfl
@[simp] theorem State.skipIf_rand (s : State) (c : Bool) : (s.skipIf c).rand = s.rand := by
  unfold State.skipIf; split <;> rfl
@[simp] theorem State.skipIf_randIdx (s : State) (c : Bool) : (s.skipIf c).randIdx = s.randIdx := by
  unfold State.skipIf; split <;> rfl
@[simp] theorem State.skipIf_beep (s : State) (c : Bool) : (s.skipIf c).beep = s.beep := by
  unfold State.skipIf; split <;> rfl
@[simp] theorem State.skipIf_diag (s : State) (c : Bool) : (s.skipIf c).diag = s.diag := by
  unfold State.skipIf; split <;> rfl

@[simp] theorem State.skipIf_getV (s : State) (c : Bool) (r : Nibble) : (s.skipIf c).getV r = s.getV r := by
  unfold State.skipIf; split <;> rfl
@[simp] theorem State.skipIf_getStack (s : State) (c : Bool) (r : Nibble) : (s.skipIf c).getStack r = s.getStack r := by
  unfold State.skipIf; split <;> rfl
@[simp] theorem State.skipIf_keyHeld (s : State) (c : Bool) (r : Nat) : (s.skipIf c).keyHeld r = s.keyHeld r := by
  unfold State.skipIf; split <;> rfl
@[simp] theorem State.skipIf_pixel (s : State) (c : Bool) (r : Nat) : (s.skipIf c).pixel r = s.pixel r := by
  unfold State.skipIf; split <;> rfl
@[simp] theorem State.skipIf_keyIndex (s : State) (c : Bool) (r : Nibble) : (s.skipIf c).keyIndex r = s.keyIndex r := by
  unfold State.skipIf; split <;> rfl

/-! ### enterFault -/

@[simp] theorem State.enterFault_V (s : State) (f : Fault) (a : Word) (n : Nat) : (s.enterFault f a n).V = s.V := rfl
@[simp] theorem State.enterFault_I (s : State) (f : Fault) (a : Word) (n : Nat) : (s.enterFault f a n).I = s.I := rfl
@[simp] theorem State.enterFault_pc (s : State) (f : Fault) (a : Word) (n : Nat) : (s.enterFault f a n).pc = s.pc := rfl
@[simp] theorem State.enterFault_stack (s : State) (f : Fault) (a : Word) (n : Nat) : (s.enterFault f a n).stack = s.stack := rfl
@[simp] theorem State.enterFault_sp (s : State) (f : Fault) (a : Word) (n : Nat) : (s.enterFault f a n).sp = s.sp := rfl
@[simp] theorem State.enterFault_DT (s : State) (f : Fault) (a : Word) (n : Nat) : (s.enterFault f a n).DT = s.DT := rfl
@[simp] theorem State.enterFault_ST (s : State) (f : Fault) (a : Word) (n : Nat) : (s.enterFault f a n).ST = s.ST := rfl
@[simp] theorem State.enterFault_FB (s : State) (f : Fault) (a : Word) (n : Nat) : (s.enterFault f a n).FB = s.FB := rfl
@[simp] theorem State.enterFault_key (s : State) (f : Fault) (a : Word) (n : Nat) : (s.enterFault f a n).key = s.key := rfl
@[simp] theorem State.enterFault_halted (s : State) (f : Fault) (a : Word) (n : Nat) : (s.enterFault f a n).halted = true := rfl
@[simp] theorem State.enterFault_drawReady (s : State) (f : Fault) (a : Word) (n : Nat) : (s.enterFault f a n).drawReady = s.drawReady := rfl
@[simp] theorem State.enterFault_ir (s : State) (f : Fault) (a : Word) (n : Nat) : (s.enterFault f a n).ir = s.ir := rfl
@[simp] theorem State.enterFault_mem (s : State) (f : Fault) (a : Word) (n : Nat) : (s.enterFault f a n).mem = s.mem := rfl
@[simp] theorem State.enterFault_rand (s : State) (f : Fault) (a : Word) (n : Nat) : (s.enterFault f a n).rand = s.rand := rfl
@[simp] theorem State.enterFault_randIdx (s : State) (f : Fault) (a : Word) (n : Nat) : (s.enterFault f a n).randIdx = s.randIdx := rfl
@[simp] theorem State.enterFault_beep (s : State) (f : Fault) (a : Word) (n : Nat) : (s.enterFault f a n).beep = s.beep := rfl
@[simp] theorem State.enterFault_diag (s : State) (f : Fault) (a : Word) (n : Nat) : (s.enterFault f a n).diag = some ⟨f, a, s.ir, n⟩ := rfl

@[simp] theorem State.enterFault_getV (s : State) (f : Fault) (a : Word) (n : Nat) (r : Nibble) : (s.enterFault f a n).getV r = s.getV r := rfl
@[simp] theorem State.enterFault_getStack (s : State) (f : Fault) (a : Word) (n : Nat) (r : Nibble) : (s.enterFault f a n).getStack r = s.getStack r := rfl
@[simp] theorem State.enterFault_keyHeld (s : State) (f : Fault) (a : Word) (n : Nat) (r : Nat) : (s.enterFault f a n).keyHeld r = s.keyHeld r := rfl
@[simp] theorem State.enterFault_pixel (s : State) (f : Fault) (a : Word) (n : Nat) (r : Nat) : (s.enterFault f a n).pixel r = s.pixel r := rfl
@[simp] theorem State.enterFault_keyIndex (s : State) (f : Fault) (a : Word) (n : Nat) (r : Nibble) : (s.enterFault f a n).keyIndex r = s.keyIndex r := rfl

/-! ### raise -/

@[simp] theorem State.raise_V (s : State) (f : Fault) (n : Nat) : (s.raise f n).V = s.V := rfl
@[simp] theorem State.raise_I (s : State) (f : Fault) (n : Nat) : (s.raise f n).I = s.I := rfl
@[simp] theorem State.raise_pc (s : State) (f : Fault) (n : Nat) : (s.raise f n).pc = s.pc := rfl
@[simp] theorem State.raise_stack (s : State) (f : Fault) (n : Nat) : (s.raise f n).stack = s.stack := rfl
@[simp] theorem State.raise_sp (s : State) (f : Fault) (n : Nat) : (s.raise f n).sp = s.sp := rfl
@[simp] theorem State.raise_DT (s : State) (f : Fault) (n : Nat) : (s.raise f n).DT = s.DT := rfl
@[simp] theorem State.raise_ST (s : State) (f : Fault) (n : Nat) : (s.raise f n).ST = s.ST := rfl
@[simp] theorem State.raise_FB (s : State) (f : Fault) (n : Nat) : (s.raise f n).FB = s.FB := rfl
@[simp] theorem State.raise_key (s : State) (f : Fault) (n : Nat) : (s.raise f n).key = s.key := rfl
@[simp] theorem State.raise_halted (s : State) (f : Fault) (n : Nat) : (s.raise f n).halted = true := rfl
@[simp] theorem State.raise_drawReady (s : State) (f : Fault) (n : Nat) : (s.raise f n).drawReady = s.drawReady := rfl
@[simp] theorem State.raise_ir (s : State) (f : Fault) (n : Nat) : (s.raise f n).ir = s.ir := rfl
@[simp] theorem State.raise_mem (s : State) (f : Fault) (n : Nat) : (s.raise f n).mem = s.mem := rfl
@[simp] theorem State.raise_rand (s : State) (f : Fault) (n : Nat) : (s.raise f n).rand = s.rand := rfl
@[simp] theorem State.raise_randIdx (s : State) (f : Fault) (n : Nat) : (s.raise f n).randIdx = s.randIdx := rfl
@[simp] theorem State.raise_beep (s : State) (f : Fault) (n : Nat) : (s.raise f n).beep = s.beep := rfl
@[simp] theorem State.raise_diag (s : State) (f : Fault) (n : Nat) : (s.raise f n).diag = some ⟨f, s.pc - 2, s.ir, n⟩ := rfl

@[simp] theorem State.raise_getV (s : State) (f : Fault) (n : Nat) (r : Nibble) : (s.raise f n).getV r = s.getV r := rfl
@[simp] theorem State.raise_getStack (s : State) (f : Fault) (n : Nat) (r : Nibble) : (s.raise f n).getStack r = s.getStack r := rfl
@[simp] theorem State.raise_keyHeld (s : State) (f : Fault) (n : Nat) (r : Nat) : (s.raise f n).keyHeld r = s.keyHeld r := rfl
@[simp] theorem State.raise_pixel (s : State) (f : Fault) (n : Nat) (r : Nat) : (s.raise f n).pixel r = s.pixel r := rfl
@[simp] theorem State.raise_keyIndex (s : State) (f : Fault) (n : Nat) (r : Nibble) : (s.raise f n).keyIndex r = s.keyIndex r := rfl

/-! ### setHalted -/

@[simp] theorem State.setHalted_V (s : State) (b : Bool) : (s.setHalted b).V = s.V := rfl
@[simp] theorem State.setHalted_I (s : State) (b : Bool) : (s.setHalted b).I = s.I := rfl
@[simp] theorem State.setHalted_pc (s : State) (b : Bool) : (s.setHalted b).pc = s.pc := rfl
@[simp] theorem State.setHalted_stack (s : State) (b : Bool) : (s.setHalted b).stack = s.stack := rfl
@[simp] theorem State.setHalted_sp (s : State) (b : Bool) : (s.setHalted b).sp = s.sp := rfl
@[simp] theorem State.setHalted_DT (s : State) (b : Bool) : (s.setHalted b).DT = s.DT := rfl
@[simp] theorem State.setHalted_ST (s : State) (b : Bool) : (s.setHalted b).ST = s.ST := rfl
@[simp] theorem State.setHalted_FB (s : State) (b : Bool) : (s.setHalted b).FB = s.FB := rfl
@[simp] theorem State.setHalted_key (s : State) (b : Bool) : (s.setHalted b).key = s.key := rfl
@[simp] theorem State.setHalted_halted (s : State) (b : Bool) : (s.setHalted b).halted = b := rfl
@[simp] theorem State.setHalted_drawReady (s : State) (b : Bool) : (s.setHalted b).drawReady = s.drawReady := rfl
@[simp] theorem State.setHalted_ir (s : State) (b : Bool) : (s.setHalted b).ir = s.ir := rfl
@[simp] theorem State.setHalted_mem (s : State) (b : Bool) : (s.setHalted b).mem = s.mem := rfl
@[simp] theorem State.setHalted_rand (s : State) (b : Bool) : (s.setHalted b).rand = s.rand := rfl
@[simp] theorem State.setHalted_randIdx (s : State) (b : Bool) : (s.setHalted b).randIdx = s.randIdx := rfl
@[simp] theorem State.setHalted_beep (s : State) (b : Bool) : (s.setHalted b).beep = s.beep := rfl
@[simp] theorem State.setHalted_diag (s : State) (b : Bool) : (s.setHalted b).diag = s.diag := rfl

@[simp] theorem State.setHalted_getV (s : State) (b : Bool) (r : Nibble) : (s.setHalted b).getV r = s.getV r := rfl
@[simp] theorem State.setHalted_getStack (s : State) (b : Bool) (r : Nibble) : (s.setHalted b).getStack r = s.getStack r := rfl
@[simp] theorem State.setHalted_keyHeld (s : State) (b : Bool) (r : Nat) : (s.setHalted b).keyHeld r = s.keyHeld r := rfl
@[simp] theorem State.setHalted_pixel (s : State) (b : Bool) (r : Nat) : (s.setHalted b).pixel r = s.pixel r := rfl
@[simp] theorem State.setHalted_keyIndex (s : State) (b : Bool) (r : Nibble) : (s.setHalted b).keyIndex r = s.keyIndex r := rfl

/-! ### setDrawReady -/

@[simp] theorem State.setDrawReady_V (s : State) (b : Bool) : (s.setDrawReady b).V = s.V := rfl
@[simp] theorem State.setDrawReady_I (s : State) (b : Bool) : (s.setDrawReady b).I = s.I := rfl
@[simp] theorem State.setDrawReady_pc (s : State) (b : Bool) : (s.setDrawReady b).pc = s.pc := rfl
@[simp] theorem State.setDrawReady_stack (s : State) (b : Bool) : (s.setDrawReady b).stack = s.stack := rfl
@[simp] theorem State.setDrawReady_sp (s : State) (b : Bool) : (s.setDrawReady b).sp = s.sp := rfl
@[simp] theorem State.setDrawReady_DT (s : State) (b : Bool) : (s.setDrawReady b).DT = s.DT := rfl
@[simp] theorem State.setDrawReady_ST (s : State) (b : Bool) : (s.setDrawReady b).ST = s.ST := rfl
@[simp] theorem State.setDrawReady_FB (s : State) (b : Bool) : (s.setDrawReady b).FB = s.FB := rfl
@[simp] theorem State.setDrawReady_key (s : State) (b : Bool) : (s.setDrawReady b).key = s.key := rfl
@[simp] theorem State.setDrawReady_halted (s : State) (b : Bool) : (s.setDrawReady b).halted = s.halted := rfl
@[simp] theorem State.setDrawReady_drawReady (s : State) (b : Bool) : (s.setDrawReady b).drawReady = b := rfl
@[simp] theorem State.setDrawReady_ir (s : State) (b : Bool) : (s.setDrawReady b).ir = s.ir := rfl
@[simp] theorem State.setDrawReady_mem (s : State) (b : Bool) : (s.setDrawReady b).mem = s.mem := rfl
@[simp] theorem State.setDrawReady_rand (s : State) (b : Bool) : (s.setDrawReady b).rand = s.rand := rfl
@[simp] theorem State.setDrawReady_randIdx (s : State) (b : Bool) : (s.setDrawReady b).randIdx = s.randIdx := rfl
@[simp] theorem State.setDrawReady_beep (s : State) (b : Bool) : (s.setDrawReady b).beep = s.beep := rfl
@[simp] theorem State.setDrawReady_diag (s : State) (b : Bool) : (s.setDrawReady b).diag = s.diag := rfl

@[simp] theorem State.setDrawReady_getV (s : State) (b : Bool) (r : Nibble) : (s.setDrawReady b).getV r = s.getV r := rfl
@[simp] theorem State.setDrawReady_getStack (s : State) (b : Bool) (r : Nibble) : (s.setDrawReady b).getStack r = s.getStack r := rfl
@[simp] theorem State.setDrawReady_keyHeld (s : State) (b : Bool) (r : Nat) : (s.setDrawReady b).keyHeld r = s.keyHeld r := rfl
@[simp] theorem State.setDrawReady_pixel (s : State) (b : Bool) (r : Nat) : (s.setDrawReady b).pixel r = s.pixel r := rfl
@[simp] theorem State.setDrawReady_keyIndex (s : State) (b : Bool) (r : Nibble) : (s.setDrawReady b).keyIndex r = s.keyIndex r := rfl

/-! ### beginCycle -/

@[simp] theorem State.beginCycle_V (s : State) (b : Byte) : (s.beginCycle b).V = s.V := rfl
@[simp] theorem State.beginCycle_I (s : State) (b : Byte) : (s.beginCycle b).I = s.I := rfl
@[simp] theorem State.beginCycle_pc (s : State) (b : Byte) : (s.beginCycle b).pc = s.pc := rfl
@[simp] theorem State.beginCycle_stack (s : State) (b : Byte) : (s.beginCycle b).stack = s.stack := rfl
@[simp] theorem State.beginCycle_sp (s : State) (b : Byte) : (s.beginCycle b).sp = s.sp := rfl
@[simp] theorem State.beginCycle_DT (s : State) (b : Byte) : (s.beginCycle b).DT = s.DT := rfl
@[simp] theorem State.beginCycle_ST (s : State) (b : Byte) : (s.beginCycle b).ST = s.ST := rfl
@[simp] theorem State.beginCycle_FB (s : State) (b : Byte) : (s.beginCycle b).FB = s.FB := rfl
@[simp] theorem State.beginCycle_key (s : State) (b : Byte) : (s.beginCycle b).key = s.key := rfl
@[simp] theorem State.beginCycle_halted (s : State) (b : Byte) : (s.beginCycle b).halted = s.halted := rfl
@[simp] theorem State.beginCycle_drawReady (s : State) (b : Byte) : (s.beginCycle b).drawReady = s.drawReady := rfl
@[simp] theorem State.beginCycle_ir (s : State) (b : Byte) : (s.beginCycle b).ir = s.ir := rfl
@[simp] theorem State.beginCycle_mem (s : State) (b : Byte) : (s.beginCycle b).mem = s.mem := rfl
@[simp] theorem State.beginCycle_rand (s : State) (b : Byte) : (s.beginCycle b).rand = b := rfl
@[simp] theorem State.beginCycle_randIdx (s : State) (b : Byte) : (s.beginCycle b).randIdx = s.randIdx := rfl
@[simp] theorem State.beginCycle_beep (s : State) (b : Byte) : (s.beginCycle b).beep = false := rfl
@[simp] theorem State.beginCycle_diag (s : State) (b : Byte) : (s.beginCycle b).diag = none := rfl

@[simp] theorem State.beginCycle_getV (s : State) (b : Byte) (r : Nibble) : (s.beginCycle b).getV r = s.getV r := rfl
@[simp] theorem State.beginCycle_getStack (s : State) (b : Byte) (r : Nibble) : (s.beginCycle b).getStack r = s.getStack r := rfl
@[simp] theorem State.beginCycle_keyHeld (s : State) (b : Byte) (r : Nat) : (s.beginCycle b).keyHeld r = s.keyHeld r := rfl
@[simp] theorem State.beginCycle_pixel (s : State) (b : Byte) (r : Nat) : (s.beginCycle b).pixel r = s.pixel r := rfl
@[simp] theorem State.beginCycle_keyIndex (s : State) (b : Byte) (r : Nibble) : (s.beginCycle b).keyIndex r = s.keyIndex r := rfl

/-! ### fetched -/

@[simp] theorem State.fetched_V (s : State) (w : Word) : (s.fetched w).V = s.V := rfl
@[simp] theorem State.fetched_I (s : State) (w : Word) : (s.fetched w).I = s.I := rfl
@[simp] theorem State.fetched_pc (s : State) (w : Word) : (s.fetched w).pc = s.pc + 2 := rfl
@[simp] theorem State.fetched_stack (s : State) (w : Word) : (s.fetched w).stack = s.stack := rfl
@[simp] theorem State.fetched_sp (s : State) (w : Word) : (s.fetched w).sp = s.sp := rfl
@[simp] theorem State.fetched_DT (s : State) (w : Word) : (s.fetched w).DT = s.DT := rfl
@[simp] theorem State.fetched_ST (s : State) (w : Word) : (s.fetched w).ST = s.ST := rfl
@[simp] theorem State.fetched_FB (s : State) (w : Word) : (s.fetched w).FB = s.FB := rfl
@[simp] theorem State.fetched_key (s : State) (w : Word) : (s.fetched w).key = s.key := rfl
@[simp] theorem State.fetched_halted (s : State) (w : Word) : (s.fetched w).halted = s.halted := rfl
@[simp] theorem State.fetched_drawReady (s : State) (w : Word) : (s.fetched w).drawReady = s.drawReady := rfl
@[simp] theorem State.fetched_ir (s : State) (w : Word) : (s.fetched w).ir = w := rfl
@[simp] theorem State.fetched_mem (s : State) (w : Word) : (s.fetched w).mem = s.mem := rfl
@[simp] theorem State.fetched_rand (s : State) (w : Word) : (s.fetched w).rand = s.rand := rfl
@[simp] theorem State.fetched_randIdx (s : State) (w : Word) : (s.fetched w).randIdx = s.randIdx := rfl
@[simp] theorem State.fetched_beep (s : State) (w : Word) : (s.fetched w).beep = s.beep := rfl
@[simp] theorem State.fetched_diag (s : State) (w : Word) : (s.fetched w).diag = s.diag := rfl

@[simp] theorem State.fetched_getV (s : State) (w : Word) (r : Nibble) : (s.fetched w).getV r = s.getV r := rfl
@[simp] theorem State.fetched_getStack (s : State) (w : Word) (r : Nibble) : (s.fetched w).getStack r = s.getStack r := rfl
@[simp] theorem State.fetched_keyHeld (s : State) (w : Word) (r : Nat) : (s.fetched w).keyHeld r = s.keyHeld r := rfl
@[simp] theorem State.fetched_pixel (s : State) (w : Word) (r : Nat) : (s.fetched w).pixel r = s.pixel r := rfl
@[simp] theorem State.fetched_keyIndex (s : State) (w : Word) (r : Nibble) : (s.fetched w).keyIndex r = s.keyIndex r := rfl

/-! ### tick -/

@[simp] theorem State.tick_V (s : State) : (s.tick).V = s.V := rfl
@[simp] theorem State.tick_I (s : State) : (s.tick).I = s.I := rfl
@[simp] theorem State.tick_pc (s : State) : (s.tick).pc = s.pc := rfl
@[simp] theorem State.tick_stack (s : State) : (s.tick).stack = s.stack := rfl
@[simp] theorem State.tick_sp (s : State) : (s.tick).sp = s.sp := rfl
@[simp] theorem State.tick_DT (s : State) : (s.tick).DT = countDown s.DT := rfl
@[simp] theorem State.tick_ST (s : State) : (s.tick).ST = countDown s.ST := rfl
@[simp] theorem State.tick_FB (s : State) : (s.tick).FB = s.FB := rfl
@[simp] theorem State.tick_key (s : State) : (s.tick).key = s.key := rfl
@[simp] theorem State.tick_halted (s : State) : (s.tick).halted = s.halted := rfl
@[simp] theorem State.tick_drawReady (s : State) : (s.tick).drawReady = s.drawReady := rfl
@[simp] theorem State.tick_ir (s : State) : (s.tick).ir = s.ir := rfl
@[simp] theorem State.tick_mem (s : State) : (s.tick).mem = s.mem := rfl
@[simp] theorem State.tick_rand (s : State) : (s.tick).rand = s.rand := rfl
@[simp] theorem State.tick_randIdx (s : State) : (s.tick).randIdx = s.randIdx := rfl
@[simp] theorem State.tick_beep (s : State) : (s.tick).beep = decide (s.ST = 1) := rfl
@[simp] theorem State.tick_diag (s : State) : (s.tick).diag = s.diag := rfl

@[simp] theorem State.tick_getV (s : State) (r : Nibble) : (s.tick).getV r = s.getV r := rfl
@[simp] theorem State.tick_getStack (s : State) (r : Nibble) : (s.tick).getStack r = s.getStack r := rfl
@[simp] theorem State.tick_keyHeld (s : State) (r : Nat) : (s.tick).keyHeld r = s.keyHeld r := rfl
@[simp] theorem State.tick_pixel (s : State) (r : Nat) : (s.tick).pixel r = s.pixel r := rfl
@[simp] theorem State.tick_keyIndex (s : State) (r : Nibble) : (s.tick).keyIndex r = s.keyIndex r := rfl

/-! ### drawn -/

@[simp] theorem State.drawn_V (s : State) : (s.drawn).V = s.V := rfl
@[simp] theorem State.drawn_I (s : State) : (s.drawn).I = s.I := rfl
@[simp] theorem State.drawn_pc (s : State) : (s.drawn).pc = s.pc := rfl
@[simp] theorem State.drawn_stack (s : State) : (s.drawn).stack = s.stack := rfl
@[simp] theorem State.drawn_sp (s : State) : (s.drawn).sp = s.sp := rfl
@[simp] theorem State.drawn_DT (s : State) : (s.drawn).DT = s.DT := rfl
@[simp] theorem State.drawn_ST (s : State) : (s.drawn).ST = s.ST := rfl
@[simp] theorem State.drawn_FB (s : State) : (s.drawn).FB = s.FB := rfl
@[simp] theorem State.drawn_key (s : State) : (s.drawn).key = s.key := rfl
@[simp] theorem State.drawn_halted (s : State) : (s.drawn).halted = s.halted := rfl
@[simp] theorem State.drawn_drawReady (s : State) : (s.drawn).drawReady = s.drawReady := rfl
@[simp] theorem State.drawn_ir (s : State) : (s.drawn).ir = s.ir := rfl
@[simp] theorem State.drawn_mem (s : State) : (s.drawn).mem = s.mem := rfl
@[simp] theorem State.drawn_rand (s : State) : (s.drawn).rand = s.rand := rfl
@[simp] theorem State.drawn_randIdx (s : State) : (s.drawn).randIdx = s.randIdx + 1 := rfl
@[simp] theorem State.drawn_beep (s : State) : (s.drawn).beep = s.beep := rfl
@[simp] theorem State.drawn_diag (s : State) : (s.drawn).diag = s.diag := rfl

@[simp] theorem State.drawn_getV (s : State) (r : Nibble) : (s.drawn).getV r = s.getV r := rfl
@[simp] theorem State.drawn_getStack (s : State) (r : Nibble) : (s.drawn).getStack r = s.getStack r := rfl
@[simp] theorem State.drawn_keyHeld (s : State) (r : Nat) : (s.drawn).keyHeld r = s.keyHeld r := rfl
@[simp] theorem State.drawn_pixel (s : State) (r : Nat) : (s.drawn).pixel r = s.pixel r := rfl
@[simp] theorem State.drawn_keyIndex (s : State) (r : Nibble) : (s.drawn).keyIndex r = s.keyIndex r := rfl

/-! ### Reads after writes -/

@[simp] theorem State.setV_getV (s : State) (x r : Nibble) (v : Byte) :
    (s.setV x v).getV r = if r = x then v else s.getV r := by
  have h : x.toNat = r.toNat ↔ r = x := by rw [BitVec.toNat_inj]; exact eq_comm
  simp only [State.getV, State.setV, Vector.get_eq_getElem, Vector.getElem_set]
  simp [h]

@[simp] theorem State.setStack_getStack (s : State) (x r : Nibble) (w : Word) :
    (s.setStack x w).getStack r = if r = x then w else s.getStack r := by
  have h : x.toNat = r.toNat ↔ r = x := by rw [BitVec.toNat_inj]; exact eq_comm
  simp only [State.getStack, State.setStack, Vector.get_eq_getElem, Vector.getElem_set]
  simp [h]

@[simp] theorem State.setKey_keyHeld (s : State) (x : Nibble) (k : Nat) (b : Bool) :
    (s.setKey x b).keyHeld k = if k = x.toNat then b else s.keyHeld k := by
  simp only [State.keyHeld, State.setKey, Vector.getElem_set]
  by_cases hk : k < 16
  · simp [hk, eq_comm]
  · have : k ≠ x.toNat := by have := x.isLt; omega
    simp [hk, this]

/-- Two states agree on every register as soon as they hold the same ones. -/
theorem State.V_ext {s t : State} (h : ∀ r, s.getV r = t.getV r) : s.V = t.V := by
  apply Vector.ext
  intro i hi
  have := h (BitVec.ofNat 4 i)
  simpa [State.getV, Vector.get_eq_getElem, Nat.mod_eq_of_lt hi] using this

/-- A record update that leaves the registers alone leaves their reads alone. -/
theorem State.getV_of_V {s t : State} (h : t.V = s.V) (r : Nibble) : t.getV r = s.getV r := by
  simp only [State.getV, h]

/-- A record update that leaves the stack alone leaves its reads alone. -/
theorem State.getStack_of_stack {s t : State} (h : t.stack = s.stack) (r : Nibble) : t.getStack r = s.getStack r := by
  simp only [State.getStack, h]

/-- A record update that leaves the framebuffer alone leaves its pixels alone. -/
theorem State.pixel_of_FB {s t : State} (h : t.FB = s.FB) (k : Nat) : t.pixel k = s.pixel k := by
  simp only [State.pixel, h]

@[simp] theorem State.reset_getV (r : Nibble) : State.reset.getV r = 0 := by
  simp [State.getV, State.reset, Vector.get_eq_getElem]

@[simp] theorem State.reset_getStack (r : Nibble) : State.reset.getStack r = 0 := by
  simp [State.getStack, State.reset, Vector.get_eq_getElem]

@[simp] theorem State.reset_keyHeld (k : Nat) : State.reset.keyHeld k = false := by
  simp [State.keyHeld, State.reset]

@[simp] theorem pixelOf_blankFrame (k : Nat) : pixelOf blankFrame k = false := by
  simp [pixelOf, blankFrame]

@[simp] theorem State.reset_pixel (k : Nat) : State.reset.pixel k = false := pixelOf_blankFrame k

end Sys2Proof.Machine
end

