-- ==== Sys2Proof/Laws/Ops.lean ====
section
/-! SUPPORT. What each shared operation can do, said once: footprints, register lists, the key scan, bytes and words, the flag byte. -/

namespace Sys2Proof.Machine

/-! ### Footprints (R41, R203) -/

/-- A footprint inside memory, or an empty one, gives the effect. -/
theorem State.withFootprint_of_fits {s : State} {n : Nat} (t : State) (h : n = 0 ∨ s.I.toNat + n - 1 ≤ 4095) :
    s.withFootprint n t = t := by
  simp only [State.withFootprint, Config.memSize]
  rw [if_neg (by omega)]

/-- A footprint past 4095 is the fault with its last address, whatever the effect would have been. -/
theorem State.withFootprint_of_past {s : State} {n : Nat} (t : State) (hn : 0 < n) (h : 4095 < s.I.toNat + n - 1) :
    s.withFootprint n t = s.raise .dataOutOfBounds (s.I.toNat + n - 1) := by
  simp only [State.withFootprint, Config.memSize]
  rw [if_pos (by omega)]

/-- Every outcome of a footprint check. -/
theorem State.withFootprint_cases (s : State) (n : Nat) (t : State) :
    ((n = 0 ∨ s.I.toNat + n - 1 ≤ 4095) ∧ s.withFootprint n t = t) ∨
      (0 < n ∧ 4095 < s.I.toNat + n - 1 ∧ s.withFootprint n t = s.raise .dataOutOfBounds (s.I.toNat + n - 1)) := by
  by_cases h : n = 0 ∨ s.I.toNat + n - 1 ≤ 4095
  · exact .inl ⟨h, State.withFootprint_of_fits t h⟩
  · exact .inr ⟨by omega, by omega, State.withFootprint_of_past t (by omega) (by omega)⟩

/-! ### Register lists (R144, R145) -/

@[simp] theorem State.regList_length (s : State) (x : Nibble) : (s.regList x).length = x.toNat + 1 := by
  simp [State.regList]

@[simp] theorem State.regList_getElem (s : State) (x : Nibble) (k : Nat) (h : k < (s.regList x).length) :
    (s.regList x)[k] = s.getV (BitVec.ofNat 4 k) := by
  simp [State.regList]

/-- Loading `n` registers changes nothing but the registers. -/
theorem State.loadRegs_eq (s : State) (n : Nat) : s.loadRegs n = { s with V := (s.loadRegs n).V } := by
  induction n with
  | zero => rfl
  | succ n ih =>
    have step : s.loadRegs (n + 1) = (s.loadRegs n).setV (BitVec.ofNat 4 n) (s.mem.read (s.I.toNat + n)) := by
      simp [State.loadRegs, List.range_succ]
    rw [step, ih]
    rfl

/-- Registers below `n` hold the bytes of memory, the others are as before. -/
theorem State.loadRegs_getV (s : State) {n : Nat} (hn : n ≤ 16) (r : Nibble) :
    (s.loadRegs n).getV r = if r.toNat < n then s.mem.read (s.I.toNat + r.toNat) else s.getV r := by
  induction n with
  | zero => simp [State.loadRegs]
  | succ n ih =>
    have step : s.loadRegs (n + 1) = (s.loadRegs n).setV (BitVec.ofNat 4 n) (s.mem.read (s.I.toNat + n)) := by
      simp [State.loadRegs, List.range_succ]
    have hr : r = BitVec.ofNat 4 n ↔ r.toNat = n := by
      rw [← BitVec.toNat_inj, BitVec.toNat_ofNat, Nat.mod_eq_of_lt (by omega)]
    rw [step, State.setV_getV, ih (by omega)]
    by_cases h : r.toNat = n
    · simp [hr.mpr h, Nat.mod_eq_of_lt (show n < 16 by omega)]
    · have h1 : ¬ r = BitVec.ofNat 4 n := fun e => h (hr.mp e)
      have h2 : r.toNat < n + 1 ↔ r.toNat < n := by omega
      simp only [h1, if_false, h2]

/-! ### The key scan (R182) -/

/-- The scan finds nothing exactly if no key is held. -/
theorem State.firstHeldKey_eq_none {s : State} : s.firstHeldKey = none ↔ ∀ k, k < 16 → s.keyHeld k = false := by
  simp [State.firstHeldKey]

/-- The scan finds `k` exactly if `k` is held and no lower key is. -/
theorem State.firstHeldKey_eq_some {s : State} {k : Nat} :
    s.firstHeldKey = some k ↔ k < 16 ∧ s.keyHeld k = true ∧ ∀ j, j < k → s.keyHeld j = false := by
  simp only [State.firstHeldKey, Config.nKey, List.find?_range_eq_some]
  constructor
  · rintro ⟨h1, h2, h3⟩
    exact ⟨by simpa using h2, h1, fun j hj => by simpa using h3 j hj⟩
  · rintro ⟨h1, h2, h3⟩
    exact ⟨h2, by simpa using h1, fun j hj => by simpa using h3 j hj⟩

/-! ### Words and bytes (R43) -/

/-- The two bytes of a word make the word again. -/
@[simp] theorem wordOfBytes_high_low (w : Word) : wordOfBytes (highByte w) (lowByte w) = w := by
  apply BitVec.eq_of_getLsbD_eq
  intro j hj
  simp only [wordOfBytes, highByte, lowByte, BitVec.getLsbD_append, BitVec.getLsbD_extractLsb']
  by_cases h : j < 8
  · simp [h]
  · simp [h, show j - 8 < 8 by omega, show 8 + (j - 8) = j by omega]

/-- A word placed at pc is the word fetched there. -/
theorem State.placeWord_readWord {s : State} (w : Word) (h : s.mem.wf = true) :
    (s.placeWord w).mem.readWord (s.placeWord w).pc.toNat = some w := by
  simp only [State.placeWord, Config.memSize, Config.loadOffset]
  split
  · rename_i hp
    have hb : s.pc.toNat + [highByte w, lowByte w].length ≤ 4096 := by simp only [List.length_cons, List.length_nil]; omega
    have h0 := Memory.read_writeBytes_inside h hb (k := 0) (by simp)
    have h2 := Memory.read_writeBytes_inside h hb (k := 1) (by simp)
    simp only [Nat.add_zero] at h0
    rw [Memory.readWord_of_lt _ hp, h0, h2]
    simp
  · have hb : 512 + [highByte w, lowByte w].length ≤ 4096 := by simp
    have h0 := Memory.read_writeBytes_inside h hb (k := 0) (by simp)
    have h2 := Memory.read_writeBytes_inside h hb (k := 1) (by simp)
    simp only [Nat.add_zero] at h0
    have e : (State.jumpTo s (BitVec.ofNat 16 512)).pc.toNat = 512 := rfl
    rw [e, Memory.readWord_of_lt _ (by omega), State.jumpTo_mem, h0, h2]
    simp

/-! ### Numbers -/

@[simp] theorem addrOf_toNat (nnn : Addr12) : (addrOf nnn).toNat = nnn.toNat := by
  have := nnn.isLt
  simp only [addrOf, BitVec.toNat_setWidth]
  exact Nat.mod_eq_of_lt (by omega)

@[simp] theorem jumpV0Target_toNat (nnn : Addr12) (v : Byte) :
    (jumpV0Target nnn v).toNat = (nnn.toNat + v.toNat) % 256 := by
  simp only [jumpV0Target, Config.bjumpMod, BitVec.toNat_ofNat]
  exact Nat.mod_eq_of_lt (by omega)

@[simp] theorem stepI_toNat (i : Word) (v : Byte) : (stepI i v).toNat = (i.toNat + v.toNat) % 4096 := by
  simp only [stepI, Config.iMod, BitVec.toNat_ofNat]
  exact Nat.mod_eq_of_lt (by omega)

@[simp] theorem fontAddr_toNat (v : Byte) : (fontAddr v).toNat = v.toNat * 5 := by
  have := v.isLt
  simp only [fontAddr, Config.fontStride, BitVec.toNat_ofNat]
  exact Nat.mod_eq_of_lt (by omega)

@[simp] theorem countDown_toNat (t : Byte) : (countDown t).toNat = t.toNat - 1 := by
  have := t.isLt
  simp only [countDown]
  split
  · rename_i h; simp [h]
  · rename_i h
    have : t.toNat ≠ 0 := fun e => h (BitVec.eq_of_toNat_eq (by simpa using e))
    rw [BitVec.toNat_sub]
    simp
    omega

@[simp] theorem flagByte_toNat (b : Bool) : (flagByte b).toNat = b.toNat := by cases b <;> rfl

end Sys2Proof.Machine
end

