-- ==== Sys2Proof/Laws/Cycle.lean ====
section
/-! SUPPORT. What one cycle can do, said once: the three ways it goes (R81), and the inversion lemma for `step`. -/

namespace Sys2Proof.Machine

/-- No fetch: the fault, then the tick (R82). -/
theorem runCycle_of_noFetch {rand : Byte} {s : State} (h : s.mem.readWord s.pc.toNat = none) :
    runCycle rand s = .next (s.beginCycle rand).rejectFetch.tick := by
  simp [runCycle, fetchExecute, thenTick, h]

/-- An illegal word: the fault, then the tick (R201). -/
theorem runCycle_of_illegal {rand : Byte} {s : State} {w : Word} {e : DecodeReject}
    (h : s.mem.readWord s.pc.toNat = some w) (hd : decodeWord w = .error e) :
    runCycle rand s = .next ((s.beginCycle rand).fetched w).rejectWord.tick := by
  simp [runCycle, fetchExecute, thenTick, h, hd]

/-- A legal word: its instruction's execute step, then the tick (R81). -/
theorem runCycle_of_legal {rand : Byte} {s : State} {w : Word} {i : Instr}
    (h : s.mem.readWord s.pc.toNat = some w) (hd : decodeWord w = .ok i) :
    runCycle rand s = thenTick (exec i ((s.beginCycle rand).fetched w)) := by
  simp [runCycle, fetchExecute, h, hd]

/-- A tick follows exactly a next state. -/
theorem thenTick_eq_next {o : Host.Outcome State Fault Refusal} {t : State} (h : thenTick o = .next t) :
    ∃ u, o = .next u ∧ t = u.tick := by
  cases o with
  | next u => exact ⟨u, rfl, by simpa [thenTick] using h.symm⟩
  | fault f => simp [thenTick] at h
  | refused r => simp [thenTick] at h

/-- Everything a cycle that answers a next state can have done. -/
theorem runCycle_cases {rand : Byte} {s t : State} (h : runCycle rand s = .next t) :
    (s.mem.readWord s.pc.toNat = none ∧ t = (s.beginCycle rand).rejectFetch.tick) ∨
    (∃ w e, s.mem.readWord s.pc.toNat = some w ∧ decodeWord w = .error e ∧
      t = ((s.beginCycle rand).fetched w).rejectWord.tick) ∨
    (∃ w i u, s.mem.readWord s.pc.toNat = some w ∧ decodeWord w = .ok i ∧
      exec i ((s.beginCycle rand).fetched w) = .next u ∧ t = u.tick) := by
  cases hw : s.mem.readWord s.pc.toNat with
  | none => rw [runCycle_of_noFetch hw] at h; exact .inl ⟨rfl, by simpa using h.symm⟩
  | some w =>
    cases hd : decodeWord w with
    | error e => rw [runCycle_of_illegal hw hd] at h; exact .inr (.inl ⟨w, e, rfl, hd, by simpa using h.symm⟩)
    | ok i =>
      rw [runCycle_of_legal hw hd] at h
      obtain ⟨u, hu, ht⟩ := thenTick_eq_next h
      exact .inr (.inr ⟨w, i, u, rfl, hd, hu, ht⟩)

/-- Everything a step that answers a next state can have done, in terms of the state before it. -/
theorem step_cases {s t : State} (h : step s = .next t) :
    (s.mem.readWord s.pc.toNat = none ∧ t = (s.drawn.beginCycle s.nextRand).rejectFetch.tick) ∨
    (∃ w e, s.mem.readWord s.pc.toNat = some w ∧ decodeWord w = .error e ∧
      t = ((s.drawn.beginCycle s.nextRand).fetched w).rejectWord.tick) ∨
    (∃ w i u, s.mem.readWord s.pc.toNat = some w ∧ decodeWord w = .ok i ∧
      exec i ((s.drawn.beginCycle s.nextRand).fetched w) = .next u ∧ t = u.tick) := runCycle_cases h

/-- A fetch that succeeds was within memory (R82). -/
theorem readWord_some_bound {m : Memory} {a : Nat} {w : Word} (h : m.readWord a = some w) :
    a ≤ 4094 ∧ w = m.read a ++ m.read (a + 1) := by
  simp only [Memory.readWord, Config.memSize, wordOfBytes] at h
  split at h
  · exact ⟨by omega, by simpa using h.symm⟩
  · simp at h

/-- A fetch that fails was past the top (R82). -/
theorem readWord_none_bound {m : Memory} {a : Nat} (h : m.readWord a = none) : 4094 < a := by
  simp only [Memory.readWord, Config.memSize] at h
  split at h
  · simp at h
  · omega

end Sys2Proof.Machine
end

