-- ==== Sys2Proof/Laws/Decode.lean ====
section
/-! SUPPORT. The fields of an encoded word are the operands it was made from (R61, R62). -/

namespace Sys2Proof

/-- The bits of `op nnn` (R62). -/
theorem getLsbD_encodeA (op : Nibble) (a : Addr12) (j : Nat) :
    (encodeA op a).getLsbD j = if j < 12 then a.getLsbD j else op.getLsbD (j - 12) := BitVec.getLsbD_append

/-- The bits of `x kk` (R61). -/
theorem getLsbD_joinXK (x : Nibble) (b : Byte) (j : Nat) :
    (joinXK x b).getLsbD j = if j < 8 then b.getLsbD j else x.getLsbD (j - 8) := BitVec.getLsbD_append

/-- The bits of `y n` (R61). -/
theorem getLsbD_joinYN (y n : Nibble) (j : Nat) :
    (joinYN y n).getLsbD j = if j < 4 then n.getLsbD j else y.getLsbD (j - 4) := BitVec.getLsbD_append

@[simp] theorem fieldOp_encodeA (op : Nibble) (a : Addr12) : fieldOp (encodeA op a) = op := by
  apply BitVec.eq_of_getLsbD_eq; intro j hj
  simp only [fieldOp, BitVec.getLsbD_extractLsb', getLsbD_encodeA]
  simp [hj]

@[simp] theorem fieldNNN_encodeA (op : Nibble) (a : Addr12) : fieldNNN (encodeA op a) = a := by
  apply BitVec.eq_of_getLsbD_eq; intro j hj
  simp only [fieldNNN, BitVec.getLsbD_extractLsb', getLsbD_encodeA]
  simp [hj]

@[simp] theorem fieldOp_encodeXK (op x : Nibble) (b : Byte) : fieldOp (encodeXK op x b) = op := fieldOp_encodeA op _

@[simp] theorem fieldX_encodeXK (op x : Nibble) (b : Byte) : fieldX (encodeXK op x b) = x := by
  apply BitVec.eq_of_getLsbD_eq; intro j hj
  simp only [fieldX, BitVec.getLsbD_extractLsb', encodeXK, getLsbD_encodeA, getLsbD_joinXK]
  simp [hj, show 8 + j < 12 by omega]

@[simp] theorem fieldKK_encodeXK (op x : Nibble) (b : Byte) : fieldKK (encodeXK op x b) = b := by
  apply BitVec.eq_of_getLsbD_eq; intro j hj
  simp only [fieldKK, BitVec.getLsbD_extractLsb', encodeXK, getLsbD_encodeA, getLsbD_joinXK]
  simp [hj, show j < 12 by omega]

@[simp] theorem fieldOp_encodeXYN (op x y n : Nibble) : fieldOp (encodeXYN op x y n) = op := fieldOp_encodeA op _

@[simp] theorem fieldX_encodeXYN (op x y n : Nibble) : fieldX (encodeXYN op x y n) = x := fieldX_encodeXK op x _

@[simp] theorem fieldY_encodeXYN (op x y n : Nibble) : fieldY (encodeXYN op x y n) = y := by
  apply BitVec.eq_of_getLsbD_eq; intro j hj
  simp only [fieldY, BitVec.getLsbD_extractLsb', encodeXYN, encodeXK, getLsbD_encodeA, getLsbD_joinXK, getLsbD_joinYN]
  simp [hj, show 4 + j < 12 by omega, show 4 + j < 8 by omega]

@[simp] theorem fieldN_encodeXYN (op x y n : Nibble) : fieldN (encodeXYN op x y n) = n := by
  apply BitVec.eq_of_getLsbD_eq; intro j hj
  simp only [fieldN, BitVec.getLsbD_extractLsb', encodeXYN, encodeXK, getLsbD_encodeA, getLsbD_joinXK, getLsbD_joinYN]
  simp [hj, show j < 12 by omega, show j < 8 by omega]

/-- A word is its family and its 12-bit address field. -/
theorem encodeA_fields (w : Word) : encodeA (fieldOp w) (fieldNNN w) = w := by
  apply BitVec.eq_of_getLsbD_eq; intro j hj
  simp only [fieldOp, fieldNNN, BitVec.getLsbD_extractLsb', getLsbD_encodeA]
  by_cases h : j < 12
  · simp [h]
  · simp [h, show j - 12 < 4 by omega, show 12 + (j - 12) = j by omega]

/-- A word is its family, `x` and `kk`. -/
theorem encodeXK_fields (w : Word) : encodeXK (fieldOp w) (fieldX w) (fieldKK w) = w := by
  apply BitVec.eq_of_getLsbD_eq; intro j hj
  simp only [fieldOp, fieldX, fieldKK, BitVec.getLsbD_extractLsb', encodeXK, getLsbD_encodeA, getLsbD_joinXK]
  by_cases h : j < 8
  · simp [h, show j < 12 by omega]
  · by_cases h' : j < 12
    · simp [h, h', show j - 8 < 4 by omega, show 8 + (j - 8) = j by omega]
    · simp [h', show j - 12 < 4 by omega, show 12 + (j - 12) = j by omega]

/-- The byte field is `y` and `n`. -/
theorem joinYN_fields (w : Word) : joinYN (fieldY w) (fieldN w) = fieldKK w := by
  apply BitVec.eq_of_getLsbD_eq; intro j hj
  simp only [fieldY, fieldKK, fieldN, BitVec.getLsbD_extractLsb', getLsbD_joinYN]
  by_cases h : j < 4
  · simp [h, hj]
  · simp [h, hj, show j - 4 < 4 by omega, show 4 + (j - 4) = j by omega]

/-- A word is its family, `x`, `y` and `n`. -/
theorem encodeXYN_fields (w : Word) : encodeXYN (fieldOp w) (fieldX w) (fieldY w) (fieldN w) = w := by
  rw [encodeXYN, joinYN_fields]; exact encodeXK_fields w

end Sys2Proof
end

