-- ==== Sys2Proof/Laws/Display.lean ====
section
/-! SUPPORT. What the blitter does to a pixel: the loops of Dxyn (R162) as one exclusive or with the set of cells they cover. -/

namespace Sys2Proof.Machine

/-- A cell past 2047 holds nothing. -/
theorem pixelOf_of_ge (f : Frame) {k : Nat} (h : 2048 ≤ k) : pixelOf f k = false := by
  simp only [pixelOf]
  rw [dif_neg (by omega)]

/-- Toggling a cell flips it and no other. -/
theorem pixelOf_togglePixel (f : Frame) {k : Nat} (hk : k < 2048) (j : Nat) :
    pixelOf (togglePixel f k) j = if j = k then !pixelOf f k else pixelOf f j := by
  have hk' : k / 64 < 32 := by omega
  simp only [togglePixel, pixelOf, hk', dite_true]
  by_cases hj : j / 64 < 32
  · simp only [hj, dite_true]
    by_cases hrow : k / 64 = j / 64
    · simp only [hrow, Vector.getElem_set_self, BitVec.getLsbD_xor, BitVec.getLsbD_twoPow]
      by_cases hcol : j % 64 = k % 64
      · have : j = k := by omega
        subst this
        simp [Nat.mod_lt]
      · have : j ≠ k := fun e => hcol (by rw [e])
        simp [this, Ne.symm hcol]
    · rw [Vector.getElem_set_ne _ _ hrow]
      have : j ≠ k := fun e => hrow (by rw [e])
      simp [this]
  · have : j ≠ k := fun e => by omega
    simp [hj, this]

/-- The cells that the first `m` columns of a sprite row cover. -/
def RowCovers (bits : Byte) (vx py m k : Nat) : Prop :=
  ∃ col, col < m ∧ bits.getLsbD (7 - col) = true ∧ vx + col < 64 ∧ py < 32 ∧ k = py * 64 + (vx + col)

/-- The cells that the first `n` rows of a sprite cover. -/
def SpriteCovers (m : Memory) (a vx vy n k : Nat) : Prop := ∃ row, row < n ∧ RowCovers (m.read (a + row)) vx (vy + row) 8 k

/-- Flipping by one set after another that it does not meet is flipping by both. -/
theorem flip_flip {P R H : Prop} (h : H → ¬R) : ¬(¬(P ↔ R) ↔ H) ↔ ¬(P ↔ R ∨ H) := by
  by_cases hp : P <;> by_cases hr : R <;> by_cases hh : H <;> simp_all

/-- One pixel: the cell is flipped if it is on the screen, and the collision is whether it was set. -/
theorem plotPixel_spec (px py : Nat) (b : Blit) :
    (∀ k, pixelOf (plotPixel px py b).FB k = true ↔
      ¬(pixelOf b.FB k = true ↔ (px < 64 ∧ py < 32 ∧ k = py * 64 + px))) ∧
    ((plotPixel px py b).collision = true ↔
      b.collision = true ∨ (px < 64 ∧ py < 32 ∧ pixelOf b.FB (py * 64 + px) = true)) := by
  simp only [plotPixel, Config.fbWidth, Config.fbHeight]
  split
  · rename_i h
    refine ⟨fun k => ?_, by simp [h]⟩
    rw [pixelOf_togglePixel _ (by omega)]
    by_cases hk : k = py * 64 + px
    · simp [hk, h]
    · simp [hk]
  · rename_i h
    constructor
    · intro k
      have : ¬(px < 64 ∧ py < 32 ∧ k = py * 64 + px) := fun e => h ⟨e.1, e.2.1⟩
      simp [this]
    · have : ¬(px < 64 ∧ py < 32 ∧ pixelOf b.FB (py * 64 + px) = true) := fun e => h ⟨e.1, e.2.1⟩
      simp [this]

/-- The first `m` columns of a row, as the loop runs them. -/
theorem plotColumns_spec (bits : Byte) (vx py m : Nat) (b : Blit) :
    let c := (List.range m).foldl (fun c col => if bits.getLsbD (7 - col) then plotPixel (vx + col) py c else c) b
    (∀ k, pixelOf c.FB k = true ↔ ¬(pixelOf b.FB k = true ↔ RowCovers bits vx py m k)) ∧
    (c.collision = true ↔ b.collision = true ∨ ∃ k, RowCovers bits vx py m k ∧ pixelOf b.FB k = true) := by
  induction m with
  | zero => simp [RowCovers]
  | succ m ih =>
    obtain ⟨ihp, ihc⟩ := ih
    simp only [List.range_succ, List.foldl_append, List.foldl_cons, List.foldl_nil]
    have grow : ∀ k, RowCovers bits vx py (m + 1) k ↔ RowCovers bits vx py m k ∨
        (bits.getLsbD (7 - m) = true ∧ vx + m < 64 ∧ py < 32 ∧ k = py * 64 + (vx + m)) := by
      intro k
      constructor
      · rintro ⟨col, hcol, h⟩
        rcases Nat.lt_succ_iff_lt_or_eq.mp hcol with hlt | rfl
        · exact .inl ⟨col, hlt, h⟩
        · exact .inr h
      · rintro (⟨col, hcol, h⟩ | h)
        · exact ⟨col, by omega, h⟩
        · exact ⟨m, by omega, h⟩
    have fresh : ¬RowCovers bits vx py m (py * 64 + (vx + m)) := by
      rintro ⟨col, hcol, _, _, _, h⟩; omega
    by_cases hb : bits.getLsbD (7 - m) = true
    · simp only [hb, if_true]
      obtain ⟨hp, hc⟩ := plotPixel_spec (vx + m) py
        ((List.range m).foldl (fun c col => if bits.getLsbD (7 - col) then plotPixel (vx + col) py c else c) b)
      refine ⟨fun k => ?_, ?_⟩
      · rw [hp, ihp, grow]
        simp only [hb, true_and]
        exact flip_flip (fun hk => by rw [hk.2.2]; exact fresh)
      · have hold : pixelOf ((List.range m).foldl (fun c col => if bits.getLsbD (7 - col) then plotPixel (vx + col) py c else c)
            b).FB (py * 64 + (vx + m)) = true ↔ pixelOf b.FB (py * 64 + (vx + m)) = true := by
          rw [ihp]; simp [fresh]
        rw [hc, ihc, hold]
        constructor
        · rintro ((h | ⟨k, hk, hp'⟩) | ⟨h1, h2, h3⟩)
          · exact .inl h
          · exact .inr ⟨k, (grow k).mpr (.inl hk), hp'⟩
          · exact .inr ⟨_, (grow _).mpr (.inr ⟨hb, h1, h2, rfl⟩), h3⟩
        · rintro (h | ⟨k, hk, hp'⟩)
          · exact .inl (.inl h)
          · rcases (grow k).mp hk with hk | ⟨_, h1, h2, rfl⟩
            · exact .inl (.inr ⟨k, hk, hp'⟩)
            · exact .inr ⟨h1, h2, hp'⟩
    · have same : ∀ k, RowCovers bits vx py (m + 1) k ↔ RowCovers bits vx py m k := by
        intro k; rw [grow]; simp [hb]
      simp only [hb, same]
      exact ⟨ihp, ihc⟩

/-- One sprite row: an exclusive or with the cells it covers, a collision exactly if one of them was set. -/
theorem plotRow_spec (bits : Byte) (vx py : Nat) (b : Blit) :
    (∀ k, pixelOf (plotRow bits vx py b).FB k = true ↔ ¬(pixelOf b.FB k = true ↔ RowCovers bits vx py 8 k)) ∧
    ((plotRow bits vx py b).collision = true ↔
      b.collision = true ∨ ∃ k, RowCovers bits vx py 8 k ∧ pixelOf b.FB k = true) :=
  plotColumns_spec bits vx py 8 b

/-- A whole sprite: an exclusive or with the cells it covers, a collision exactly if one of them was set (R162). -/
theorem plotSprite_spec (m : Memory) (a n vx vy : Nat) (b : Blit) :
    (∀ k, pixelOf (plotSprite m a n vx vy b).FB k = true ↔ ¬(pixelOf b.FB k = true ↔ SpriteCovers m a vx vy n k)) ∧
    ((plotSprite m a n vx vy b).collision = true ↔
      b.collision = true ∨ ∃ k, SpriteCovers m a vx vy n k ∧ pixelOf b.FB k = true) := by
  induction n with
  | zero => simp [plotSprite, SpriteCovers]
  | succ n ih =>
    obtain ⟨ihp, ihc⟩ := ih
    have unroll : plotSprite m a (n + 1) vx vy b = plotRow (m.read (a + n)) vx (vy + n) (plotSprite m a n vx vy b) := by
      simp [plotSprite, List.range_succ]
    have grow : ∀ k, SpriteCovers m a vx vy (n + 1) k ↔ SpriteCovers m a vx vy n k ∨
        RowCovers (m.read (a + n)) vx (vy + n) 8 k := by
      intro k
      constructor
      · rintro ⟨row, hrow, h⟩
        rcases Nat.lt_succ_iff_lt_or_eq.mp hrow with hlt | rfl
        · exact .inl ⟨row, hlt, h⟩
        · exact .inr h
      · rintro (⟨row, hrow, h⟩ | h)
        · exact ⟨row, by omega, h⟩
        · exact ⟨n, by omega, h⟩
    have fresh : ∀ k, RowCovers (m.read (a + n)) vx (vy + n) 8 k → ¬SpriteCovers m a vx vy n k := by
      rintro k ⟨col, _, _, hx, _, h⟩ ⟨row, hrow, col', _, _, hx', _, h'⟩
      omega
    obtain ⟨hp, hc⟩ := plotRow_spec (m.read (a + n)) vx (vy + n) (plotSprite m a n vx vy b)
    rw [unroll]
    refine ⟨fun k => ?_, ?_⟩
    · rw [hp, ihp, grow]
      exact flip_flip (fresh k)
    · have hold : ∀ k, RowCovers (m.read (a + n)) vx (vy + n) 8 k →
          (pixelOf (plotSprite m a n vx vy b).FB k = true ↔ pixelOf b.FB k = true) := by
        intro k hk; rw [ihp]; simp [fresh k hk]
      rw [hc, ihc]
      constructor
      · rintro ((h | ⟨k, hk, hp'⟩) | ⟨k, hk, hp'⟩)
        · exact .inl h
        · exact .inr ⟨k, (grow k).mpr (.inl hk), hp'⟩
        · exact .inr ⟨k, (grow k).mpr (.inr hk), (hold k hk).mp hp'⟩
      · rintro (h | ⟨k, hk, hp'⟩)
        · exact .inl (.inl h)
        · rcases (grow k).mp hk with hk | hk
          · exact .inl (.inr ⟨k, hk, hp'⟩)
          · exact .inr ⟨k, hk, (hold k hk).mpr hp'⟩

end Sys2Proof.Machine
end

