-- ==== Sys2Proof/Laws/Environment.lean ====
section
/-! SUPPORT. What the two checks on the host's arguments decide, and when `perform` answers. -/

namespace Sys2Proof

@[simp] theorem programFits_iff (bytes : List Byte) : programFits bytes = true ↔ bytes.length ≤ 3584 := by simp [programFits]

@[simp] theorem keyIndexOk_iff (k : Nat) : keyIndexOk k = true ↔ k ≤ 15 := by
  simp only [keyIndexOk, Config.nKey, decide_eq_true_eq]; omega

namespace Machine

theorem perform_load_of_fits {bytes : List Byte} (s : State) (h : bytes.length ≤ 3584) :
    perform (.load bytes) s = .next (s.loadOp bytes, .done) := if_pos ((programFits_iff bytes).2 h)

theorem perform_load_of_long {bytes : List Byte} (s : State) (h : 3584 < bytes.length) :
    perform (.load bytes) s = .refused .loadTooLong :=
  if_neg (fun hf => absurd ((programFits_iff bytes).1 hf) (by omega))

theorem perform_setKey_of_le {k : Nat} (b : Bool) (s : State) (h : k ≤ 15) :
    perform (.setKey k b) s = .next (s.setKey (BitVec.ofNat 4 k) b, .done) := if_pos ((keyIndexOk_iff k).2 h)

theorem perform_setKey_of_gt {k : Nat} (b : Bool) (s : State) (h : 15 < k) :
    perform (.setKey k b) s = .refused .keyIndexTooLarge :=
  if_neg (fun hf => absurd ((keyIndexOk_iff k).1 hf) (by omega))

end Machine

end Sys2Proof
end

