-- ==== Sys2Proof/Laws/Exec.lean ====
section
/-! SUPPORT. The meanings that choose between an effect and a fault, one equation for each choice; the other meanings are one
equation already, by `rfl`. -/

namespace Sys2Proof.Machine

theorem exec_ret_of_pos {s : State} (h : s.sp ≠ 0) : exec .ret s = .next { s with pc := s.getStack s.sp, sp := s.sp - 1 } :=
  if_neg h

theorem exec_ret_of_zero {s : State} (h : s.sp = 0) : exec .ret s = .next (s.raise .stackUnderflow 0) := if_pos h

theorem exec_call_of_lt {s : State} (nnn : Addr12) (h : s.sp.toNat < 15) :
    exec (.call nnn) s = .next (({ s with sp := s.sp + 1 }.setStack (s.sp + 1) s.pc).jumpTo (addrOf nnn)) :=
  if_neg (Nat.ne_of_lt h)

theorem exec_call_of_full {s : State} (nnn : Addr12) (h : s.sp.toNat = 15) :
    exec (.call nnn) s = .next (s.raise .stackOverflow 0) := if_pos h

theorem exec_ldB_of_fits {s : State} (x : Nibble) (h : s.I.toNat + 2 ≤ 4095) :
    exec (.ldB x) s = .next { s with mem := s.mem.writeBytes s.I.toNat (bcdDigits (s.getV x)) } :=
  congrArg _ (State.withFootprint_of_fits _ (Or.inr (by omega)))

theorem exec_ldMemVx_of_fits {s : State} (x : Nibble) (h : s.I.toNat + x.toNat ≤ 4095) :
    exec (.ldMemVx x) s = .next { s with mem := s.mem.writeBytes s.I.toNat (s.regList x) } :=
  congrArg _ (State.withFootprint_of_fits _ (Or.inr (by omega)))

theorem exec_ldVxMem_of_fits {s : State} (x : Nibble) (h : s.I.toNat + x.toNat ≤ 4095) :
    exec (.ldVxMem x) s = .next (s.loadRegs (x.toNat + 1)) :=
  congrArg _ (State.withFootprint_of_fits _ (Or.inr (by omega)))

theorem exec_drw_of_fits {s : State} (x y n : Nibble) (h : n.toNat = 0 ∨ s.I.toNat + n.toNat - 1 ≤ 4095) :
    exec (.drw x y n) s = .next (drawSprite x y n s) :=
  congrArg _ (State.withFootprint_of_fits _ h)

theorem keySkip_of_le {x : Nibble} {s : State} (wanted : Bool) (h : (s.getV x).toNat ≤ 15) :
    keySkip x wanted s = s.skipIf (s.keyHeld (s.getV x).toNat == wanted) :=
  if_neg (show ¬(16 ≤ (s.getV x).toNat) by omega)

theorem keySkip_of_gt {x : Nibble} {s : State} (wanted : Bool) (h : 15 < (s.getV x).toNat) :
    keySkip x wanted s = s.raise .keyIndexOutOfRange (s.getV x).toNat :=
  if_pos (show 16 ≤ (s.getV x).toNat from h)

theorem exec_ldVxK_of_none {x : Nibble} {s : State} (h : s.firstHeldKey = none) :
    exec (.ldVxK x) s = .next (s.jumpTo (s.pc - 2)) := by
  simp only [exec, execLdVxK, h]; rfl

theorem exec_ldVxK_of_some {x : Nibble} {s : State} {k : Nat} (h : s.firstHeldKey = some k) :
    exec (.ldVxK x) s = .next (s.setV x (BitVec.ofNat 8 k)) := by
  simp only [exec, execLdVxK, h]
  congr 1
  simp [State.setV, State.jumpTo]

/-- The bytes Fx55 stores, read back one by one. -/
theorem read_storedRegs {s : State} {x : Nibble} (hwf : s.mem.wf = true) (hI : s.I.toNat + x.toNat ≤ 4095) {k : Nat}
    (hk : k ≤ x.toNat) : (s.mem.writeBytes s.I.toNat (s.regList x)).read (s.I.toNat + k) = s.getV (BitVec.ofNat 4 k) := by
  rw [Memory.read_writeBytes_inside hwf (by simp; omega) (by simp; omega)]; simp

/-- The fault `f` with info `k` is the one the instruction takes in `s` (R203 to R206). -/
def TakesFault (s : State) (f : Fault) (k : Nat) : Instr → Prop
  | .ret => s.sp = 0 ∧ f = .stackUnderflow ∧ k = 0
  | .call _ => s.sp.toNat = 15 ∧ f = .stackOverflow ∧ k = 0
  | .drw _ _ n => 0 < n.toNat ∧ 4095 < s.I.toNat + n.toNat - 1 ∧ f = .dataOutOfBounds ∧ k = s.I.toNat + n.toNat - 1
  | .ldB _ => 4095 < s.I.toNat + 2 ∧ f = .dataOutOfBounds ∧ k = s.I.toNat + 2
  | .ldMemVx x | .ldVxMem x => 4095 < s.I.toNat + x.toNat ∧ f = .dataOutOfBounds ∧ k = s.I.toNat + x.toNat
  | .skp x | .sknp x => 15 < (s.getV x).toNat ∧ f = .keyIndexOutOfRange ∧ k = (s.getV x).toNat
  | _ => False

/-- The state after the execute step where the instruction takes no fault. -/
def effect (s : State) : Instr → State
  | .cls => { s with FB := blankFrame }
  | .ret => { s with pc := s.getStack s.sp, sp := s.sp - 1 }
  | .jp nnn => s.jumpTo (addrOf nnn)
  | .call nnn => ({ s with sp := s.sp + 1 }.setStack (s.sp + 1) s.pc).jumpTo (addrOf nnn)
  | .seImm x kk => s.skipIf (decide (s.getV x = kk))
  | .sneImm x kk => s.skipIf (decide (s.getV x ≠ kk))
  | .seReg x y => s.skipIf (decide (s.getV x = s.getV y))
  | .sneReg x y => s.skipIf (decide (s.getV x ≠ s.getV y))
  | .ldImm x kk => s.setV x kk
  | .addImm x kk => s.setV x (s.getV x + kk)
  | .ldReg x y => s.setV x (s.getV y)
  | .orReg x y => s.setV x (s.getV x ||| s.getV y)
  | .andReg x y => s.setV x (s.getV x &&& s.getV y)
  | .xorReg x y => s.setV x (s.getV x ^^^ s.getV y)
  | .addReg x y => (s.setV VF (carryFlag (s.getV x) (s.getV y))).setV x (s.getV x + s.getV y)
  | .subReg x y =>
    let f := s.setV VF (notBorrowFlag (s.getV x) (s.getV y))
    f.setV x (f.getV x - f.getV y)
  | .shr x _ =>
    let f := s.setV VF (lowBitFlag (s.getV x))
    f.setV x (f.getV x >>> 1)
  | .subn x y =>
    let f := s.setV VF (greaterFlag (s.getV x) (s.getV y))
    f.setV x (f.getV y - f.getV x)
  | .shl x _ =>
    let f := s.setV VF (highBitFlag (s.getV x))
    f.setV x (f.getV x <<< 1)
  | .ldI nnn => { s with I := addrOf nnn }
  | .jpV0 nnn => s.jumpTo (jumpV0Target nnn (s.getV 0))
  | .rnd x kk => s.setV x (s.rand &&& kk)
  | .drw x y n => drawSprite x y n s
  | .skp x => s.skipIf (s.keyHeld (s.getV x).toNat == true)
  | .sknp x => s.skipIf (s.keyHeld (s.getV x).toNat == false)
  | .ldVxDT x => s.setV x s.DT
  | .ldDTVx x => { s with DT := s.getV x }
  | .ldSTVx x => { s with ST := s.getV x }
  | .addI x => { s with I := stepI s.I (s.getV x) }
  | .ldF x => { s with I := fontAddr (s.getV x) }
  | .ldB x => { s with mem := s.mem.writeBytes s.I.toNat (bcdDigits (s.getV x)) }
  | .ldMemVx x => { s with mem := s.mem.writeBytes s.I.toNat (s.regList x) }
  | .ldVxMem x => s.loadRegs (x.toNat + 1)
  | .ldVxK x =>
    match s.firstHeldKey with
    | none => s.jumpTo (s.pc - 2)
    | some k => s.setV x (BitVec.ofNat 8 k)

/-- What the execute step can do, said once: the one fault its instruction has, or its effect. -/
theorem exec_cases (i : Instr) (s : State) :
    (∃ f k, TakesFault s f k i ∧ exec i s = .next (s.raise f k)) ∨
      ((∀ f k, ¬TakesFault s f k i) ∧ exec i s = .next (effect s i)) := by
  cases i
  case ret =>
    by_cases hz : s.sp = 0
    · exact .inl ⟨_, _, ⟨hz, rfl, rfl⟩, exec_ret_of_zero hz⟩
    · exact .inr ⟨fun f k hf => hz hf.1, exec_ret_of_pos hz⟩
  case call nnn =>
    have := s.sp.isLt
    by_cases hz : s.sp.toNat = 15
    · exact .inl ⟨_, _, ⟨hz, rfl, rfl⟩, exec_call_of_full nnn hz⟩
    · exact .inr ⟨fun f k hf => hz hf.1, exec_call_of_lt nnn (by omega)⟩
  case drw x y n =>
    rcases State.withFootprint_cases s n.toNat (drawSprite x y n s) with ⟨hf, he⟩ | ⟨hn, hf, he⟩
    · exact .inr ⟨fun f k hk => by have := hk.1; have := hk.2.1; omega, congrArg _ he⟩
    · exact .inl ⟨_, _, ⟨hn, hf, rfl, rfl⟩, congrArg _ he⟩
  case ldB x =>
    by_cases hf : s.I.toNat + 2 ≤ 4095
    · exact .inr ⟨fun f k hk => absurd hk.1 (by omega), exec_ldB_of_fits x hf⟩
    · exact .inl ⟨_, _, ⟨by omega, rfl, rfl⟩, congrArg _ (State.withFootprint_of_past _ (by omega) (by omega))⟩
  case ldMemVx x =>
    by_cases hf : s.I.toNat + x.toNat ≤ 4095
    · exact .inr ⟨fun f k hk => absurd hk.1 (by omega), exec_ldMemVx_of_fits x hf⟩
    · exact .inl ⟨_, _, ⟨by omega, rfl, rfl⟩, congrArg _ (State.withFootprint_of_past _ (by omega) (by omega))⟩
  case ldVxMem x =>
    by_cases hf : s.I.toNat + x.toNat ≤ 4095
    · exact .inr ⟨fun f k hk => absurd hk.1 (by omega), exec_ldVxMem_of_fits x hf⟩
    · exact .inl ⟨_, _, ⟨by omega, rfl, rfl⟩, congrArg _ (State.withFootprint_of_past _ (by omega) (by omega))⟩
  case skp x =>
    by_cases hf : (s.getV x).toNat ≤ 15
    · exact .inr ⟨fun f k hk => absurd hk.1 (by omega), congrArg _ (keySkip_of_le _ hf)⟩
    · exact .inl ⟨_, _, ⟨by omega, rfl, rfl⟩, congrArg _ (keySkip_of_gt _ (by omega))⟩
  case sknp x =>
    by_cases hf : (s.getV x).toNat ≤ 15
    · exact .inr ⟨fun f k hk => absurd hk.1 (by omega), congrArg _ (keySkip_of_le _ hf)⟩
    · exact .inl ⟨_, _, ⟨by omega, rfl, rfl⟩, congrArg _ (keySkip_of_gt _ (by omega))⟩
  case ldVxK x =>
    refine .inr ⟨fun _ _ hf => hf, ?_⟩
    cases hk : s.firstHeldKey with
    | none => simp only [exec_ldVxK_of_none hk, effect, hk]
    | some k => simp only [exec_ldVxK_of_some hk, effect, hk]
  all_goals exact .inr ⟨fun _ _ hf => hf, rfl⟩

/-- No effect touches the flag, outputs and inputs of the cycle, the fetched word or the key table. -/
theorem effect_clean (s : State) (i : Instr) :
    (effect s i).halted = s.halted ∧ (effect s i).diag = s.diag ∧ (effect s i).ir = s.ir ∧ (effect s i).key = s.key ∧
      (effect s i).rand = s.rand ∧ (effect s i).randIdx = s.randIdx ∧ (effect s i).beep = s.beep := by
  cases i
  case ldVxMem x => simp only [effect]; rw [State.loadRegs_eq]; exact ⟨rfl, rfl, rfl, rfl, rfl, rfl, rfl⟩
  case ldVxK x => simp only [effect]; split <;> exact ⟨rfl, rfl, rfl, rfl, rfl, rfl, rfl⟩
  case seImm | sneImm | seReg | sneReg | skp | sknp => simp [effect]
  all_goals exact ⟨rfl, rfl, rfl, rfl, rfl, rfl, rfl⟩

end Sys2Proof.Machine
end

