-- ==== Sys2Proof/Laws/Frame.lean ====
section
/-! SUPPORT. Frames: they compose, they widen, and the whole of a frame is read off field by field. -/

namespace Sys2Proof.Safety

open Sys2Proof.Machine

theorem UnchangedBut.refl (ps : List Part) (s : State) : UnchangedBut ps s s := by
  intro p _; cases p <;> simp [Part.same]

theorem UnchangedBut.mono {ps qs : List Part} {s t : State} (h : UnchangedBut ps s t) (hq : ∀ p, p ∈ ps → p ∈ qs) :
    UnchangedBut qs s t := fun p hp => h p (fun hm => hp (hq p hm))

theorem Part.same_trans {s t u : State} {p : Part} (h : Part.same s t p) (h' : Part.same t u p) : Part.same s u p := by
  cases p <;> simp_all [Part.same]

theorem UnchangedBut.trans {ps : List Part} {s t u : State} (h : UnchangedBut ps s t) (h' : UnchangedBut ps t u) :
    UnchangedBut ps s u := fun p hp => Part.same_trans (h p hp) (h' p hp)

/-- A part all of whose fields are equal reads the same. -/
theorem Part.same_of_fields {s t : State} (p : Part)
    (h : match p with
      | .V => t.V = s.V | .I => t.I = s.I | .pc => t.pc = s.pc | .stack => t.stack = s.stack | .sp => t.sp = s.sp
      | .DT => t.DT = s.DT | .ST => t.ST = s.ST | .FB => t.FB = s.FB | .key => t.key = s.key
      | .halted => t.halted = s.halted | .drawReady => t.drawReady = s.drawReady | .ir => t.ir = s.ir
      | .mem => t.mem = s.mem | .rand => t.rand = s.rand | .randIdx => t.randIdx = s.randIdx
      | .beep => t.beep = s.beep | .diag => t.diag = s.diag) : Part.same s t p := by
  cases p <;> simp only [Part.same] <;> first
    | exact h
    | (intro r; first
        | exact State.getV_of_V h r
        | exact State.getStack_of_stack h r
        | exact State.pixel_of_FB h r
        | simp only [State.keyHeld, h])

end Sys2Proof.Safety
end

