-- ==== Sys2Proof/Laws/PerInstr.lean ====
section
/-! SUPPORT. The family EncodesItsRow: every instruction's word has the fixed bits of its row of the opcode map (R65). -/

namespace Sys2Proof.Laws.EncodesItsRow

open Sys2Proof

/-- The word of `i` is accepted by the row of `i`. -/
def Statement (i : Instr) : Prop := i.row.accepts (encode i) = true

/-- Format A under the mask F000 keeps `op`. -/
theorem mask_encodeA (op : Nibble) (a : Addr12) : encodeA op a &&& 0xF000#16 = encodeA op 0 := by
  apply BitVec.eq_of_getLsbD_eq; intro j hj
  simp only [BitVec.getLsbD_and, getLsbD_encodeA]
  interval_cases j <;> simp

/-- Format XS under the mask F0FF keeps `op` and the sub-opcode. -/
theorem mask_encodeXK (op x : Nibble) (b : Byte) : encodeXK op x b &&& 0xF0FF#16 = encodeXK op 0 b := by
  apply BitVec.eq_of_getLsbD_eq; intro j hj
  simp only [BitVec.getLsbD_and, encodeXK, getLsbD_encodeA, getLsbD_joinXK]
  interval_cases j <;> simp

/-- Format XY under the mask F00F keeps `op` and the sub-opcode. -/
theorem mask_encodeXYN (op x y n : Nibble) : encodeXYN op x y n &&& 0xF00F#16 = encodeXYN op 0 0 n := by
  apply BitVec.eq_of_getLsbD_eq; intro j hj
  simp only [BitVec.getLsbD_and, encodeXYN, encodeXK, getLsbD_encodeA, getLsbD_joinXK, getLsbD_joinYN]
  interval_cases j <;> simp

theorem cls : Statement .cls := rfl
theorem ret : Statement .ret := rfl
theorem jp (nnn : Addr12) : Statement (.jp nnn) := beq_iff_eq.mpr (mask_encodeA _ _)
theorem call (nnn : Addr12) : Statement (.call nnn) := beq_iff_eq.mpr (mask_encodeA _ _)
theorem seImm (x : Nibble) (kk : Byte) : Statement (.seImm x kk) := beq_iff_eq.mpr (mask_encodeA _ _)
theorem sneImm (x : Nibble) (kk : Byte) : Statement (.sneImm x kk) := beq_iff_eq.mpr (mask_encodeA _ _)
theorem seReg (x y : Nibble) : Statement (.seReg x y) := beq_iff_eq.mpr (mask_encodeXYN _ _ _ _)
theorem sneReg (x y : Nibble) : Statement (.sneReg x y) := beq_iff_eq.mpr (mask_encodeXYN _ _ _ _)
theorem ldImm (x : Nibble) (kk : Byte) : Statement (.ldImm x kk) := beq_iff_eq.mpr (mask_encodeA _ _)
theorem addImm (x : Nibble) (kk : Byte) : Statement (.addImm x kk) := beq_iff_eq.mpr (mask_encodeA _ _)
theorem ldReg (x y : Nibble) : Statement (.ldReg x y) := beq_iff_eq.mpr (mask_encodeXYN _ _ _ _)
theorem orReg (x y : Nibble) : Statement (.orReg x y) := beq_iff_eq.mpr (mask_encodeXYN _ _ _ _)
theorem andReg (x y : Nibble) : Statement (.andReg x y) := beq_iff_eq.mpr (mask_encodeXYN _ _ _ _)
theorem xorReg (x y : Nibble) : Statement (.xorReg x y) := beq_iff_eq.mpr (mask_encodeXYN _ _ _ _)
theorem addReg (x y : Nibble) : Statement (.addReg x y) := beq_iff_eq.mpr (mask_encodeXYN _ _ _ _)
theorem subReg (x y : Nibble) : Statement (.subReg x y) := beq_iff_eq.mpr (mask_encodeXYN _ _ _ _)
theorem shr (x y : Nibble) : Statement (.shr x y) := beq_iff_eq.mpr (mask_encodeXYN _ _ _ _)
theorem subn (x y : Nibble) : Statement (.subn x y) := beq_iff_eq.mpr (mask_encodeXYN _ _ _ _)
theorem shl (x y : Nibble) : Statement (.shl x y) := beq_iff_eq.mpr (mask_encodeXYN _ _ _ _)
theorem ldI (nnn : Addr12) : Statement (.ldI nnn) := beq_iff_eq.mpr (mask_encodeA _ _)
theorem jpV0 (nnn : Addr12) : Statement (.jpV0 nnn) := beq_iff_eq.mpr (mask_encodeA _ _)
theorem rnd (x : Nibble) (kk : Byte) : Statement (.rnd x kk) := beq_iff_eq.mpr (mask_encodeA _ _)
theorem drw (x y n : Nibble) : Statement (.drw x y n) := beq_iff_eq.mpr (mask_encodeA _ _)
theorem skp (x : Nibble) : Statement (.skp x) := beq_iff_eq.mpr (mask_encodeXK _ _ _)
theorem sknp (x : Nibble) : Statement (.sknp x) := beq_iff_eq.mpr (mask_encodeXK _ _ _)
theorem ldVxDT (x : Nibble) : Statement (.ldVxDT x) := beq_iff_eq.mpr (mask_encodeXK _ _ _)
theorem ldDTVx (x : Nibble) : Statement (.ldDTVx x) := beq_iff_eq.mpr (mask_encodeXK _ _ _)
theorem ldSTVx (x : Nibble) : Statement (.ldSTVx x) := beq_iff_eq.mpr (mask_encodeXK _ _ _)
theorem addI (x : Nibble) : Statement (.addI x) := beq_iff_eq.mpr (mask_encodeXK _ _ _)
theorem ldF (x : Nibble) : Statement (.ldF x) := beq_iff_eq.mpr (mask_encodeXK _ _ _)
theorem ldB (x : Nibble) : Statement (.ldB x) := beq_iff_eq.mpr (mask_encodeXK _ _ _)
theorem ldMemVx (x : Nibble) : Statement (.ldMemVx x) := beq_iff_eq.mpr (mask_encodeXK _ _ _)
theorem ldVxMem (x : Nibble) : Statement (.ldVxMem x) := beq_iff_eq.mpr (mask_encodeXK _ _ _)
theorem ldVxK (x : Nibble) : Statement (.ldVxK x) := beq_iff_eq.mpr (mask_encodeXK _ _ _)

end Sys2Proof.Laws.EncodesItsRow
end

