-- ==== Sys2Proof/Tests/Slice0.lean ====
section
/-! SUPPORT. The model's own tests.
Every expected value is from spec/: the vectors of 95_test_vectors.md by their ids, or the encodings of 30_encoding.md. -/

namespace Sys2Proof.Tests

open Sys2Proof.Machine

/-! ### WellFormed: ill-formed terms that each check refuses, beside one it accepts -/

/-- X-1, X-3, X-5, X-7, X-8, X-9, X-12 of 95_test_vectors.md: one illegal word a family and more. -/
theorem test_wordLegal_refuses :
    [0x0000, 0x01E0, 0x8008, 0x5001, 0x9001, 0xE000, 0xF0FF].all (fun w => !wordLegal w) = true := by decide

/-- F-10: 0x3000 is legal (conflict C4). -/
theorem test_wordLegal_accepts : wordLegal 0x3000 = true := by decide

/-- Z-4 and Z-5: 3584 bytes are accepted, 3585 refused. -/
theorem test_programFits :
    programFits (List.replicate 3584 0) = true ∧ programFits (List.replicate 3585 0) = false := by
  simp only [programFits, List.length_replicate]; decide

/-- Z-6: key index 16 is refused; 15 is the last one. -/
theorem test_keyIndexOk : keyIndexOk 15 = true ∧ keyIndexOk 16 = false := by decide

/-! ### Decode: one word written out from the spec's encoding for each constructor -/

theorem test_decode_cls : decodeWord 0x00E0 = .ok (.cls) := by decide
theorem test_decode_ret : decodeWord 0x00EE = .ok (.ret) := by decide
theorem test_decode_jp : decodeWord 0x1ABC = .ok (.jp 0xABC) := by decide
theorem test_decode_call : decodeWord 0x220C = .ok (.call 0x20C) := by decide
theorem test_decode_seImm : decodeWord 0x3100 = .ok (.seImm 1 0x00) := by decide
theorem test_decode_sneImm : decodeWord 0x4206 = .ok (.sneImm 2 0x06) := by decide
theorem test_decode_seReg : decodeWord 0x5340 = .ok (.seReg 3 4) := by decide
theorem test_decode_sneReg : decodeWord 0x9340 = .ok (.sneReg 3 4) := by decide
theorem test_decode_ldImm : decodeWord 0x6A7F = .ok (.ldImm 10 0x7F) := by decide
theorem test_decode_addImm : decodeWord 0x71FF = .ok (.addImm 1 0xFF) := by decide
theorem test_decode_ldReg : decodeWord 0x8120 = .ok (.ldReg 1 2) := by decide
theorem test_decode_orReg : decodeWord 0x8011 = .ok (.orReg 0 1) := by decide
theorem test_decode_andReg : decodeWord 0x8232 = .ok (.andReg 2 3) := by decide
theorem test_decode_xorReg : decodeWord 0x8453 = .ok (.xorReg 4 5) := by decide
theorem test_decode_addReg : decodeWord 0x8F14 = .ok (.addReg 15 1) := by decide
theorem test_decode_subReg : decodeWord 0x81F5 = .ok (.subReg 1 15) := by decide
theorem test_decode_shr : decodeWord 0x8016 = .ok (.shr 0 1) := by decide
theorem test_decode_subn : decodeWord 0x8017 = .ok (.subn 0 1) := by decide
theorem test_decode_shl : decodeWord 0x8F1E = .ok (.shl 15 1) := by decide
theorem test_decode_ldI : decodeWord 0xA300 = .ok (.ldI 0x300) := by decide
theorem test_decode_jpV0 : decodeWord 0xB2F8 = .ok (.jpV0 0x2F8) := by decide
theorem test_decode_rnd : decodeWord 0xC00F = .ok (.rnd 0 0x0F) := by decide
theorem test_decode_drw : decodeWord 0xD012 = .ok (.drw 0 1 2) := by decide
theorem test_decode_skp : decodeWord 0xE19E = .ok (.skp 1) := by decide
theorem test_decode_sknp : decodeWord 0xE1A1 = .ok (.sknp 1) := by decide
theorem test_decode_ldVxDT : decodeWord 0xF207 = .ok (.ldVxDT 2) := by decide
theorem test_decode_ldDTVx : decodeWord 0xF315 = .ok (.ldDTVx 3) := by decide
theorem test_decode_ldSTVx : decodeWord 0xF418 = .ok (.ldSTVx 4) := by decide
theorem test_decode_addI : decodeWord 0xF21E = .ok (.addI 2) := by decide
theorem test_decode_ldF : decodeWord 0xF329 = .ok (.ldF 3) := by decide
theorem test_decode_ldB : decodeWord 0xF033 = .ok (.ldB 0) := by decide
theorem test_decode_ldMemVx : decodeWord 0xF255 = .ok (.ldMemVx 2) := by decide
theorem test_decode_ldVxMem : decodeWord 0xF265 = .ok (.ldVxMem 2) := by decide
theorem test_decode_ldVxK : decodeWord 0xF10A = .ok (.ldVxK 1) := by decide

/-- The illegal words X-1 to X-13 of 95_test_vectors.md, each rejected by its family's name. -/
theorem test_decode_rejects :
    decodeWord 0x0000 = .error .family0 ∧ decodeWord 0x00E1 = .error .family0 ∧ decodeWord 0x01E0 = .error .family0 ∧
    decodeWord 0x0FFF = .error .family0 ∧ decodeWord 0x8008 = .error .family8 ∧ decodeWord 0x800F = .error .family8 ∧
    decodeWord 0x5001 = .error .family5 ∧ decodeWord 0x9001 = .error .family9 ∧ decodeWord 0xE000 = .error .familyE ∧
    decodeWord 0xE09F = .error .familyE ∧ decodeWord 0xF000 = .error .familyF ∧ decodeWord 0xF0FF = .error .familyF ∧
    decodeWord 0xF075 = .error .familyF := by decide

/-- R43: the word 0x8014 is the byte 80 at the lower address and 14 after it. -/
theorem test_decode_bytes : decode [0x80, 0x14, 0x55] = .ok (.addReg 0 1, [0x55]) := by decide

/-- A lone byte is no instruction (R60). -/
theorem test_decode_short : decode [0x80] = .error .shortInput := by decide

/-- The table's numbering: bit 0 is the least significant bit of the word. -/
theorem test_decodeTableWord : decodeTableWord 16 0xD012 = some (.drw 0 1 2) ∧ decodeTableWord 16 0x0000 = none := by decide

/-! ### One cycle -/

/-- The next state of an outcome, or `s` where it has none. -/
def nextOf (o : Host.Outcome State Fault Refusal) (s : State) : State :=
  match o with
  | .next t => t
  | .fault _ | .refused _ => s

/-- The state after one RUN_CYCLE(rand) with the word placed at pc. -/
def cycleOf (s : State) (w : Word) (rand : Byte := 0) : State := nextOf (runCycle rand (s.placeWord w)) s

/-- Reset with pc moved. -/
def atPc (a : Word) : State := State.reset.jumpTo a

/-- Reset with two registers written. -/
def withRegs (x : Nibble) (a : Byte) (y : Nibble) (b : Byte) : State := (State.reset.setV x a).setV y b

/-- Reset with `I` and two bytes of memory from there. -/
def withData (i : Word) (a b : Byte) : State := { State.reset with I := i, mem := Memory.writeBytes [] i.toNat [a, b] }

/-- F-1. -/
theorem test_jp : (cycleOf State.reset 0x1ABC).pc = 0xABC := by decide

/-- F-3, its second cycle: fetch at 0xFFF faults, pc and ir stay. -/
theorem test_fetch_fault : let t := cycleOf State.reset 0x1FFF
    let u := nextOf (runCycle 0 t) t
    u.pc = 0xFFF ∧ u.ir = 0x1FFF ∧ u.halted = true ∧ u.diag = some ⟨.fetchOutOfBounds, 0xFFF, 0x1FFF, 0xFFF⟩ := by decide

/-- F-4. -/
theorem test_call : let t := cycleOf { atPc 0x300 with sp := 14 } 0x2ABC
    t.sp = 15 ∧ t.getStack 15 = 0x302 ∧ t.pc = 0xABC := by decide

/-- F-5. -/
theorem test_call_overflow : let t := cycleOf { atPc 0x300 with sp := 15 } 0x2ABC
    t.diag = some ⟨.stackOverflow, 0x300, 0x2ABC, 0⟩ ∧ t.halted = true ∧ t.pc = 0x302 ∧ t.sp = 15 ∧ t.getStack 15 = 0 := by decide

/-- F-6: the cell is not cleared. -/
theorem test_ret : let t := cycleOf ({ atPc 0x20E with sp := 1 }.setStack 1 0x208) 0x00EE
    t.pc = 0x208 ∧ t.sp = 0 ∧ t.getStack 1 = 0x208 := by decide

/-- F-7. -/
theorem test_ret_underflow : let t := cycleOf (atPc 0x20E) 0x00EE
    t.diag = some ⟨.stackUnderflow, 0x20E, 0x00EE, 0⟩ ∧ t.halted = true ∧ t.pc = 0x210 ∧ t.sp = 0 := by decide

/-- F-8 and F-9. -/
theorem test_seImm : (cycleOf (atPc 0x208) 0x3100).pc = 0x20C ∧ (cycleOf ((atPc 0x208).setV 1 1) 0x3100).pc = 0x20A := by decide

/-- F-11. -/
theorem test_sneImm : (cycleOf ((atPc 0x300).setV 2 5) 0x4206).pc = 0x304 ∧ (cycleOf ((atPc 0x300).setV 2 6) 0x4206).pc = 0x302 := by decide

/-- F-17, x = y always skips. -/
theorem test_seReg : (cycleOf (atPc 0x210) 0x5330).pc = 0x214 ∧ (cycleOf ((atPc 0x210).setV 3 0x2A) 0x5340).pc = 0x212 := by decide

/-- F-16. -/
theorem test_sneReg : (cycleOf ((atPc 0x210).setV 3 0x2A) 0x9340).pc = 0x214 ∧ (cycleOf (atPc 0x210) 0x9340).pc = 0x212 := by decide

/-- F-12, F-14. -/
theorem test_jpV0 : (cycleOf (State.reset.setV 0 0x10) 0xB2F8).pc = 0x008 ∧ (cycleOf (State.reset.setV 0 0xFF) 0xBFFF).pc = 0x0FE := by decide

/-- F-18 and F-19. -/
theorem test_odd_fetch_and_top : (cycleOf (atPc 0xFFE) 0x3000).pc = 0x1002 ∧ (cycleOf (atPc 0xFFD) 0x6005).getV 0 = 5 := by decide

/-- A0-2. -/
theorem test_ldImm : (cycleOf State.reset 0x6F33).getV 15 = 0x33 := by decide

/-- A0-3: no carry reported. -/
theorem test_addImm : let t := cycleOf (withRegs 0 1 15 0xFF) 0x70FF
    t.getV 0 = 0 ∧ t.getV 15 = 0xFF := by decide

/-- A0-6. -/
theorem test_ldReg : let t := cycleOf (withRegs 1 0x11 2 0x22) 0x8120
    t.getV 1 = 0x22 ∧ t.getV 2 = 0x22 := by decide

/-- A0-7. -/
theorem test_orReg : let t := cycleOf ((withRegs 0 0xF0 1 0x3C).setV 15 0x77) 0x8011
    t.getV 0 = 0xFC ∧ t.getV 15 = 0x77 := by decide

/-- A0-8. -/
theorem test_andReg : (cycleOf (withRegs 2 0xF0 3 0x3C) 0x8232).getV 2 = 0x30 := by decide

/-- A0-9. -/
theorem test_xorReg : (cycleOf (withRegs 4 0xF0 5 0x3C) 0x8453).getV 4 = 0xCC := by decide

/-- A4-2. -/
theorem test_addReg : let t := cycleOf (withRegs 0 0xFF 1 1) 0x8014
    t.getV 0 = 0 ∧ t.getV 15 = 1 := by decide

/-- A4-6, A4-7: VF as destination and as source. -/
theorem test_addReg_vf : (cycleOf (withRegs 15 0xF0 1 0x20) 0x8F14).getV 15 = 0x10 ∧
    (cycleOf (withRegs 1 0xF0 15 0x20) 0x81F4).getV 15 = 0x01 := by decide

/-- A5-2, A5-3. -/
theorem test_subReg : (cycleOf (withRegs 0 3 1 5) 0x8015).getV 0 = 0xFE ∧ (cycleOf (withRegs 0 3 1 5) 0x8015).getV 15 = 0 ∧
    (cycleOf (withRegs 0 7 1 7) 0x8015).getV 15 = 1 := by decide

/-- A5-7, A5-9. -/
theorem test_subReg_vf : (cycleOf (withRegs 15 0x10 1 3) 0x8F15).getV 15 = 0xFE ∧
    (cycleOf (withRegs 1 0x10 15 3) 0x81F5).getV 1 = 0x0F := by decide

/-- A6-5, A6-7. -/
theorem test_shr : (cycleOf (withRegs 0 0xFF 1 0xAA) 0x8016).getV 0 = 0x7F ∧ (cycleOf (withRegs 0 0xFF 1 0xAA) 0x8016).getV 15 = 1 ∧
    (cycleOf (State.reset.setV 15 7) 0x8F16).getV 15 = 0 := by decide

/-- A7-2, A7-3: equal operands give VF = 0. -/
theorem test_subn : (cycleOf (withRegs 0 5 1 3) 0x8017).getV 0 = 0xFE ∧ (cycleOf (withRegs 0 7 1 7) 0x8017).getV 15 = 0 := by decide

/-- A7-7, A7-9. -/
theorem test_subn_vf : (cycleOf (withRegs 15 3 1 0x10) 0x8F17).getV 15 = 0x0F ∧
    (cycleOf (withRegs 1 3 15 0x10) 0x81F7).getV 1 = 0xFE := by decide

/-- AE-1, AE-6. -/
theorem test_shl : (cycleOf (State.reset.setV 0 0x81) 0x801E).getV 0 = 2 ∧ (cycleOf (State.reset.setV 0 0x81) 0x801E).getV 15 = 1 ∧
    (cycleOf (State.reset.setV 15 0x81) 0x8F1E).getV 15 = 2 := by decide

/-- AR-1, AR-3. -/
theorem test_rnd : (cycleOf State.reset 0xC00F 0xA7).getV 0 = 7 ∧ (cycleOf (State.reset.setV 2 0x55) 0xC200 0xFF).getV 2 = 0 := by decide

/-- I-2. -/
theorem test_ldI : (cycleOf State.reset 0xAFFF).I = 0xFFF := by decide

/-- I-4: wraps, VF unchanged. -/
theorem test_addI : let t := cycleOf { State.reset.setV 2 1 with I := 0xFFF } 0xF21E
    t.I = 0 ∧ t.getV 15 = 0 := by decide

/-- I-5a: all 8 bits used. -/
theorem test_ldF : (cycleOf (State.reset.setV 3 0x10) 0xF329).I = 0x050 ∧ (cycleOf (State.reset.setV 3 0xFF) 0xF329).I = 0x4FB := by decide

/-- I-11a: at the top of memory. -/
theorem test_ldB : (cycleOf { State.reset.setV 0 0xFF with I := 0xFFD } 0xF033).mem =
    [(0x200, 0xF0), (0x201, 0x33), (0xFFD, 2), (0xFFE, 5), (0xFFF, 5)] := by decide

/-- I-11b: no byte written. -/
theorem test_ldB_fault : let t := cycleOf { State.reset.setV 0 0xFF with I := 0xFFE } 0xF033
    t.diag = some ⟨.dataOutOfBounds, 0x200, 0xF033, 0x1000⟩ ∧ t.halted = true ∧ t.mem = [(0x200, 0xF0), (0x201, 0x33)] := by decide

/-- I-12: I unchanged, the byte after is 0. -/
theorem test_ldMemVx : let t := cycleOf { (withRegs 0 0x0A 1 0x0B).setV 2 0x0C with I := 0x400 } 0xF255
    t.mem = [(0x200, 0xF2), (0x201, 0x55), (0x400, 0x0A), (0x401, 0x0B), (0x402, 0x0C)] ∧ t.I = 0x400 := by decide

/-- I-18: the instruction overwrites its own first byte. -/
theorem test_ldMemVx_self : let t := cycleOf { State.reset.setV 0 0x12 with I := 0x200 } 0xF055
    t.mem.read 0x200 = 0x12 ∧ t.ir = 0xF055 ∧ t.pc = 0x202 := by decide

/-- I-15 on two bytes: registers above x keep their value. -/
theorem test_ldVxMem : let t := cycleOf ((withData 0x400 0x0A 0x0B).setV 2 0x77) 0xF165
    t.getV 0 = 0x0A ∧ t.getV 1 = 0x0B ∧ t.getV 2 = 0x77 ∧ t.I = 0x400 := by decide

/-- I-16. -/
theorem test_ldVxMem_fault : let t := cycleOf { withRegs 0 1 1 2 with I := 0xFFF } 0xF165
    t.diag = some ⟨.dataOutOfBounds, 0x200, 0xF165, 0x1000⟩ ∧ t.getV 0 = 1 ∧ t.getV 1 = 2 := by decide

/-- D-9: VF and draw_ready stay. -/
theorem test_cls : let t := cycleOf { State.reset.setV 15 7 with FB := togglePixel blankFrame 3 } 0x00E0
    t.FB = blankFrame ∧ t.getV 15 = 7 ∧ t.drawReady = false := by decide

/-- D-3: A5 3C at (60, 31) sets (60,31) and (62,31) only. -/
theorem test_drw_clip : let t := cycleOf { (withData 0x300 0xA5 0x3C).setV 0 60 |>.setV 1 31 with I := 0x300 } 0xD012
    t.FB = togglePixel (togglePixel blankFrame 2044) 2046 ∧ t.getV 15 = 0 ∧ t.drawReady = true := by decide

/-- D-2: pixel (3,0) already set. -/
theorem test_drw_collision : let t := cycleOf { withData 0x300 0xFF 0 with FB := togglePixel blankFrame 3 } 0xD011
    t.FB[0] = 0xF7 ∧ t.getV 15 = 1 := by decide

/-- K-1, K-2. -/
theorem test_skp : (cycleOf (((atPc 0x220).setV 1 7).setKey 7 true) 0xE19E).pc = 0x224 ∧
    (cycleOf ((atPc 0x220).setV 1 7) 0xE19E).pc = 0x222 := by decide

/-- K-5. -/
theorem test_skp_fault : let t := cycleOf ((atPc 0x220).setV 1 0x10) 0xE19E
    t.diag = some ⟨.keyIndexOutOfRange, 0x220, 0xE19E, 0x10⟩ ∧ t.halted = true ∧ t.pc = 0x222 := by decide

/-- K-3, K-4. -/
theorem test_sknp : (cycleOf ((atPc 0x220).setV 1 7) 0xE1A1).pc = 0x224 ∧
    (cycleOf (((atPc 0x220).setV 1 7).setKey 7 true) 0xE1A1).pc = 0x222 := by decide

/-- K-7. -/
theorem test_ldVxK_waits : let t := cycleOf ((atPc 0x206).setV 1 0x33) 0xF10A
    t.pc = 0x206 ∧ t.getV 1 = 0x33 := by decide

/-- K-8. -/
theorem test_ldVxK_lowest : let t := cycleOf (((atPc 0x206).setKey 7 true).setKey 11 true) 0xF10A
    t.pc = 0x208 ∧ t.getV 1 = 7 := by decide

/-- K-11: read before the tick. -/
theorem test_ldVxDT : let t := cycleOf { State.reset with DT := 2 } 0xF207
    t.getV 2 = 2 ∧ t.DT = 1 := by decide

/-- K-13, K-14. -/
theorem test_ldDTVx : (cycleOf (State.reset.setV 0 3) 0xF015).DT = 2 ∧ (cycleOf { State.reset with DT := 9 } 0xF015).DT = 0 := by decide

/-- K-16, K-17. -/
theorem test_ldSTVx : (cycleOf (State.reset.setV 0 1) 0xF018).beep = true ∧ (cycleOf (State.reset.setV 0 1) 0xF018).ST = 0 ∧
    (cycleOf (State.reset.setV 0 2) 0xF018).beep = false := by decide

/-- K-21: a faulting cycle ticks. -/
theorem test_decodeFailure : let t := cycleOf { State.reset with ST := 1, DT := 5 } 0x0000
    t.diag = some ⟨.decodeFailure, 0x200, 0x0000, 0⟩ ∧ t.halted = true ∧ t.pc = 0x202 ∧ t.ST = 0 ∧ t.DT = 4 ∧ t.beep = true := by decide

/-! ### Reset, load, host -/

/-- Z-3: an odd-length program; its bytes stand from 0x200. -/
theorem test_load :
    perform (.load [0x60, 0x01, 0x61]) (State.reset.setV 3 9) =
      .next ({ State.reset with mem := [(0x200, 0x60), (0x201, 0x01), (0x202, 0x61)] }, .done) := by rfl

/-- Z-6. -/
theorem test_setKey_refused : perform (.setKey 16 true) State.reset = .refused .keyIndexTooLarge := by rfl

/-- R26: before the first reset nothing but RESET and LOAD. -/
theorem test_before_reset : performFromPower .readHalted none = .refused .beforeFirstReset := by rfl

/-- The codes 1 to 6 of R200. -/
theorem test_fault_codes :
    [Fault.decodeFailure, .fetchOutOfBounds, .dataOutOfBounds, .stackOverflow, .stackUnderflow, .keyIndexOutOfRange].map faultCode =
      [1, 2, 3, 4, 5, 6] := by decide

/-- P1, its third instruction after the first two: V0 = 6, VF = 0 (source scenario S1). -/
theorem test_scenario_S1 : (cycleOf (withRegs 0 1 1 5) 0x8014).getV 0 = 6 := by decide

/-- F-2 is the conventional end of a program (R89). -/
theorem test_parked : Safety.endOfRun (State.reset.placeWord 0x1200) = true ∧ Safety.endOfRun State.reset = false := by decide

/-! ### Witnesses: states and operands that meet the hypotheses of each statement together, at the ends of their ranges -/

open Sys2Proof.Safety Sys2Proof.Statement

/-- The state after one step. -/
def after (s : State) : State := nextOf (step s) s

/-- Reset with the word `w` at address `a`, pc there. -/
def withWord (a : Word) (w : Word) : State := (atPc a).placeWord w

/-- Reset with `I` moved. -/
def withI (i : Word) : State := { State.reset with I := i }

/-- A state at the upper ends of R27: `I` 4095, a stack cell 4096, pc at the last fetchable address, where CALL 0xABC stands. -/
def topState : State := ({ withWord 0xFFE 0x2ABC with I := 0xFFF }).setStack 1 0x1000

theorem witness_EveryCycleKeepsTheInvariant : MachineInv topState ∧ step topState = .next (after topState) := ⟨by decide, rfl⟩

/-- pc 4098, which a skip at the top of memory leaves. -/
theorem witness_EveryCycleKeepsTheInvariant_pc : MachineInv (atPc 0x1002) ∧ step (atPc 0x1002) = .next (after (atPc 0x1002)) :=
  ⟨by decide, rfl⟩

theorem witness_EveryHostOperationKeepsTheInvariant :
    MachineInv topState ∧ perform (.setKey 15 true) topState = .next (topState.setKey 15 true, .done) := ⟨by decide, rfl⟩

theorem witness_EncodeOfDecode : decodeWord 0xFFFF = .error .familyF ∧ decodeWord 0xFF65 = .ok (.ldVxMem 15) := by decide

/-- Both sides of the equivalence, and a word that decodes. -/
theorem witness_DecoderAcceptsTheOpcodeMap :
    decodeWord 0xDFFF = .ok (.drw 15 15 15) ∧ wordLegal 0xDFFF = true ∧ wordLegal 0x5001 = false ∧ wordLegal 0x9001 = false := by
  decide

theorem witness_StepRunsTheDecodedInstruction : let s := withWord 0xFFE 0x1ABC
    s.pc.toNat ≤ 4094 ∧ decodeWord (s.mem.read s.pc.toNat ++ s.mem.read (s.pc.toNat + 1)) = .ok (.jp 0xABC) := by decide

theorem witness_FetchPastTheTopFaults : 4094 < (atPc 0xFFF).pc.toNat ∧ 4094 < (atPc 0xFFFF).pc.toNat := by decide

theorem witness_IllegalWordHaltsTheMachine : let s := withWord 0xFFE 0x5001
    s.mem.readWord s.pc.toNat = some 0x5001 ∧ wordLegal 0x5001 = false := by decide

/-- The delay timer's clause by an Fx18 cycle, the sound timer's by an Fx15 cycle. -/
theorem witness_TimersCountInEveryCycle :
    step (withWord 0x200 0xF018) = .next (after (withWord 0x200 0xF018)) ∧
    (∀ w x, (withWord 0x200 0xF018).mem.readWord 512 = some w → decodeWord w ≠ .ok (.ldDTVx x)) ∧
    step (withWord 0x200 0xF015) = .next (after (withWord 0x200 0xF015)) ∧
    (∀ w x, (withWord 0x200 0xF015).mem.readWord 512 = some w → decodeWord w ≠ .ok (.ldSTVx x)) :=
  ⟨rfl, by rintro w x h; cases h; revert x; decide, rfl, by rintro w x h; cases h; revert x; decide⟩

theorem witness_WrittenTimersTickInTheSameCycle :
    (withWord 0xFFE 0xFF15).mem.readWord 0xFFE = some 0xFF15 ∧ decodeWord 0xFF15 = .ok (.ldDTVx 15) ∧
    (withWord 0xFFE 0xF018).mem.readWord 0xFFE = some 0xF018 ∧ decodeWord 0xF018 = .ok (.ldSTVx 0) := by decide

theorem witness_HaltedIsNotTested :
    step (State.setHalted (withWord 0x200 0x1ABC) false) = .next (after (State.setHalted (withWord 0x200 0x1ABC) false)) := rfl

/-- One cycle with a `diag` and one without. -/
theorem witness_HaltedIsSetExactlyByFaults :
    step State.reset = .next (after State.reset) ∧ (after State.reset).diag ≠ none ∧
    step (withWord 0x200 0x1ABC) = .next (after (withWord 0x200 0x1ABC)) ∧ (after (withWord 0x200 0x1ABC)).diag = none :=
  ⟨rfl, by decide, rfl, by decide⟩

/-- A fault of the fetch step and one of a later step. -/
theorem witness_FaultsArePrecise :
    step (atPc 0xFFF) = .next (after (atPc 0xFFF)) ∧ (after (atPc 0xFFF)).diag = some ⟨.fetchOutOfBounds, 0xFFF, 0, 0xFFF⟩ ∧
    step (withWord 0xFFE 0x00EE) = .next (after (withWord 0xFFE 0x00EE)) ∧
    (after (withWord 0xFFE 0x00EE)).diag = some ⟨.stackUnderflow, 0xFFE, 0x00EE, 0⟩ := ⟨rfl, by decide, rfl, by decide⟩

/-- Each of the six faults, at the end of its condition's range. -/
theorem witness_EachFaultHasItsCondition :
    (after (withWord 0x200 0x8008)).diag = some ⟨.decodeFailure, 0x200, 0x8008, 0x8008⟩ ∧
    (after (atPc 0xFFF)).diag = some ⟨.fetchOutOfBounds, 0xFFF, 0, 0xFFF⟩ ∧
    (after { withWord 0x200 0xF033 with I := 0xFFE }).diag = some ⟨.dataOutOfBounds, 0x200, 0xF033, 0x1000⟩ ∧
    (after { withWord 0x200 0x2ABC with sp := 15 }).diag = some ⟨.stackOverflow, 0x200, 0x2ABC, 0⟩ ∧
    (after (withWord 0x200 0x00EE)).diag = some ⟨.stackUnderflow, 0x200, 0x00EE, 0⟩ ∧
    (after ((withWord 0x200 0xE19E).setV 1 16)).diag = some ⟨.keyIndexOutOfRange, 0x200, 0xE19E, 16⟩ ∧
    (after ((withWord 0x200 0xE1A1).setV 1 16)).diag = some ⟨.keyIndexOutOfRange, 0x200, 0xE1A1, 16⟩ := by decide

/-- A cycle without a fault, whose skip leaves pc 4098, and a faulting one. -/
theorem witness_PcAfterACycle :
    (withWord 0xFFE 0x3000).mem.readWord 0xFFE = some 0x3000 ∧ decodeWord 0x3000 = .ok (.seImm 0 0) ∧
    (after (withWord 0xFFE 0x3000)).diag = none ∧ (after (withWord 0xFFE 0x3000)).pc = 0x1002 ∧
    (withWord 0xFFE 0x00EE).mem.readWord 0xFFE = some 0x00EE ∧ decodeWord 0x00EE = .ok .ret ∧
    (after (withWord 0xFFE 0x00EE)).diag ≠ none ∧ (after (withWord 0xFFE 0x00EE)).pc = 0x1000 := by decide

/-- A jump, which writes no register; a call; a store; a load of V0 to V14, which does not write V15; a fault. -/
theorem witness_EachPartHasOnlyItsWriters :
    exec (.jp 0xABC) State.reset = .next (State.reset.jumpTo 0xABC) ∧ ¬writesRegister 0 (.jp 0xABC) ∧
    exec (.call 0xABC) State.reset = .next (nextOf (exec (.call 0xABC) State.reset) State.reset) ∧
    exec (.ldB 0) State.reset = .next State.reset ∧ writesPc (.ldB 0) = false ∧
    exec (.ldVxMem 14) State.reset = .next (State.reset.loadRegs 15) ∧ ¬writesRegister 15 (.ldVxMem 14) ∧
    exec .ret State.reset = .next { State.reset with halted := true, diag := some ⟨.stackUnderflow, 0x1FE, 0, 0⟩ } :=
  ⟨rfl, id, rfl, rfl, rfl, rfl, by simp [writesRegister], rfl⟩

theorem witness_OnlySixInstructionsWriteVFAsAFlag :
    exec (.addImm 14 0xFF) State.reset = .next (State.reset.setV 14 0xFF) ∧ writesFlag (.addImm 14 0xFF) = false ∧
    destination (.addImm 14 0xFF) ≠ some 15 := ⟨rfl, by decide⟩

theorem witness_OnlyRndReadsTheRandomByte :
    (∀ x kk, Instr.ldVxDT 0 ≠ .rnd x kk) ∧ exec (.ldVxDT 0) State.reset = .next (State.reset.setV 0 0) := ⟨by simp, rfl⟩

/-- The two clauses meet between depth 14 and 15. -/
theorem witness_CallPushesThePostFetchPc :
    ({ State.reset with sp := 14 }).sp.toNat < 15 ∧ ({ State.reset with sp := 15 }).sp.toNat = 15 := by decide

/-- The two clauses meet between depth 1 and 0. -/
theorem witness_ReturnPopsThePc : 0 < ({ State.reset with sp := 1 }).sp.toNat ∧ State.reset.sp.toNat = 0 := by decide

theorem witness_ReturnResumesAfterTheCall : let s := { State.reset with sp := 14 }
    let t := nextOf (exec (.call 0xABC) s) s
    s.sp.toNat < 15 ∧ exec (.call 0xABC) s = .next t ∧ (t.setV 0 7).sp = t.sp ∧ (t.setV 0 7).getStack t.sp = t.getStack t.sp :=
  ⟨by decide, rfl, rfl, rfl⟩

/-- Both sides of `x ≠ 15` and `r ≠ 15`: the carry of 255 + 1 in VF, and VF overwritten by the sum 15 + 1. -/
theorem witness_AddSetsTheCarry :
    (cycleOf (withRegs 14 0xFF 1 1) 0x8E14).getV 15 = 1 ∧ (cycleOf (withRegs 15 0x0F 1 1) 0x8F14).getV 15 = 0x10 := by decide

/-- x = 15 with V[y] = 1: f = 1 is the minuend, 1 - 1; x = 14 with equal operands: f = 1. -/
theorem witness_SubtractSetsNotBorrow :
    (cycleOf (withRegs 15 9 1 1) 0x8F15).getV 15 = 0 ∧ (cycleOf (withRegs 14 5 1 5) 0x8E15).getV 15 = 1 := by decide

/-- y = 15 with V[15] above V[x]: f = 1 is the minuend, 1 - 0; x = 14 with equal operands: f = 0. -/
theorem witness_ReverseSubtractIsStrict :
    (cycleOf (withRegs 0 0 15 9) 0x80F7).getV 0 = 1 ∧ (cycleOf (withRegs 14 5 1 5) 0x8E17).getV 15 = 0 := by decide

/-- x = 14 and x = 15, each shift, with the bit shifted out set. -/
theorem witness_ShiftsMoveOneBit :
    (cycleOf (State.reset.setV 14 0x81) 0x8E06).getV 14 = 0x40 ∧ (cycleOf (State.reset.setV 15 0x81) 0x8F06).getV 15 = 0 ∧
    (cycleOf (State.reset.setV 14 0x81) 0x8E0E).getV 14 = 0x02 ∧ (cycleOf (State.reset.setV 15 0x81) 0x8F0E).getV 15 = 2 := by decide

theorem witness_RandomByteIsMasked :
    (withWord 0xFFE 0xCF0F).mem.readWord 0xFFE = some 0xCF0F ∧ decodeWord 0xCF0F = .ok (.rnd 15 0x0F) := by decide

theorem witness_DecimalDigitsAreStored : (withI 0xFFD).mem.wf = true ∧ (withI 0xFFD).I.toNat + 2 = 4095 := by decide

/-- x = 0 and x = 15 with the last byte at 4095, for Fx55 and Fx65. -/
theorem witness_RegistersAreStored : (withI 0xFFF).mem.wf = true ∧ (withI 0xFFF).I.toNat + (0 : Nibble).toNat = 4095 ∧
    (withI 0xFF0).I.toNat + (15 : Nibble).toNat = 4095 := by decide

theorem witness_RegistersAreLoaded : (withI 0xFFF).I.toNat + (0 : Nibble).toNat ≤ 4095 ∧
    (0 : Nibble).toNat < (15 : Nibble).toNat ∧ (withI 0xFF0).I.toNat + (15 : Nibble).toNat ≤ 4095 := by decide

theorem witness_StoreThenLoadRestoresRegisters : let s := (withI 0xFF0).setV 15 9
    let t := nextOf (exec (.ldMemVx 15) s) s
    let u := t.setV 15 0
    s.mem.wf = true ∧ s.I.toNat + (15 : Nibble).toNat ≤ 4095 ∧ exec (.ldMemVx 15) s = .next t ∧ u.mem = t.mem ∧ u.I = t.I :=
  ⟨by decide, by decide, rfl, rfl, rfl⟩

/-- Each of the four instructions at its first faulting address. -/
theorem witness_FootprintPastTheEndFaults :
    (footprint (.drw 0 0 2) = some 2 ∧ 4095 < (withI 0xFFF).I.toNat + 2 - 1) ∧
    (footprint (.ldB 15) = some 3 ∧ 4095 < (withI 0xFFE).I.toNat + 3 - 1) ∧
    (footprint (.ldMemVx 15) = some 16 ∧ 4095 < (withI 0xFF1).I.toNat + 16 - 1) ∧
    (footprint (.ldVxMem 0) = some 1 ∧ 4095 < (withI 0x1000).I.toNat + 1 - 1) := by decide

/-- V0, V1 hold the word 1ABC and `I` is the post-fetch pc. -/
theorem witness_StoredWordIsFetchedNext : let s := { withRegs 0 0x1A 1 0xBC with I := 0xFFE, pc := 0xFFE }
    s.mem.wf = true ∧ s.I.toNat + (1 : Nibble).toNat ≤ 4095 ∧
    exec (.ldMemVx 1) s = .next (nextOf (exec (.ldMemVx 1) s) s) ∧ s.I.toNat ≤ s.pc.toNat ∧
    s.pc.toNat + 1 ≤ s.I.toNat + (1 : Nibble).toNat ∧
    decodeWord (s.getV (BitVec.ofNat 4 (s.pc.toNat - s.I.toNat)) ++ s.getV (BitVec.ofNat 4 (s.pc.toNat + 1 - s.I.toNat))) =
      .ok (.jp 0xABC) := ⟨by decide, by decide, rfl, by decide, by decide, by decide⟩

/-- A sprite byte at 4095 whose left pixel falls on the last cell, set or not; and no rows at all. -/
def drawState (lit : Bool) : State :=
  { withRegs 0 63 1 31 with
    I := 0xFFF
    mem := [(0xFFF, 0x80)]
    FB := if lit then togglePixel blankFrame 2047 else blankFrame }

theorem witness_DrawXorsTheClippedSprite :
    ((drawState true).I.toNat + (1 : Nibble).toNat - 1 ≤ 4095 ∧ (drawState true).pixel 2047 = true ∧
      Covers (drawState true) 0 1 1 2047) ∧
    (¬∃ k, (drawState false).pixel k = true ∧ Covers (drawState false) 0 1 1 k) ∧ (0 : Nibble).toNat = 0 := by
  refine ⟨⟨by decide, by decide, 0, 0, by decide, by decide, by decide, by decide, by decide, by decide⟩, ?_, rfl⟩
  rintro ⟨k, hk, row, col, hr, hc, hb, h1, h2, rfl⟩
  obtain rfl : row = 0 := by have : row < 1 := hr; omega
  obtain rfl : col = 0 := by have : 63 + col < 64 := h1; omega
  exact absurd hk (by decide)

theorem witness_DrawingTwiceRestoresTheScreen : (0 : Nibble) ≠ 15 ∧ (1 : Nibble) ≠ 15 ∧
    (drawState true).I.toNat + (1 : Nibble).toNat - 1 ≤ 4095 ∧
    exec (.drw 0 1 1) (drawState true) = .next (nextOf (exec (.drw 0 1 1) (drawState true)) (drawState true)) :=
  ⟨by decide, by decide, by decide, rfl⟩

/-- The two clauses meet between 15 and 16. -/
theorem witness_KeySkips : ((State.reset.setV 0 15).getV 0).toNat ≤ 15 ∧ 15 < ((State.reset.setV 0 16).getV 0).toNat := by decide

/-- No key held, and only the last one held. -/
theorem witness_KeyWait : (∀ k, k < 16 → State.reset.keyHeld k = false) ∧ (State.reset.setKey 15 true).keyHeld 15 = true ∧
    ∀ j, j < 15 → (State.reset.setKey 15 true).keyHeld j = false := by decide

theorem witness_LoadPlacesTheProgram : (List.replicate 3584 (1 : Byte)).length ≤ 3584 ∧ 3584 < (List.replicate 3585 (1 : Byte)).length := by
  rw [List.length_replicate, List.length_replicate]; decide

theorem witness_HostWritesTouchOneFlag : 15 ≤ 15 ∧ 15 < 16 ∧ perform (.setKey 15 true) State.reset = .next (State.reset.setKey 15 true, .done) :=
  ⟨by decide, by decide, rfl⟩

theorem witness_NothingRunsBeforeTheFirstReset : EnvOp.readHalted ≠ .reset ∧ ∀ bytes, EnvOp.readHalted ≠ .load bytes := by simp

theorem witness_ParkedMachineStaysParked : parked (withWord 0xFFE 0x1FFE) = true ∧ parked (withWord 0 0x1000) = true := by decide

/-- pc at the last fetchable address, and past it. -/
theorem witness_PlacedWordRunsNext : (atPc 0xFFE).mem.wf = true ∧ (atPc 0xFFF).mem.wf = true := by decide

end Sys2Proof.Tests
end

/-! SUPPORT. The lemmas and proofs of the family 40_cycle.md. -/

namespace Sys2Proof.Machine

/-! ### The two halves of `exec_cases` as equations: an instruction takes at most one fault, and the execute step is that fault
or the instruction's effect -/

/-- The fault an instruction takes, and its info, are determined by the state (R203 to R206). -/
theorem TakesFault.unique {s : State} {i : Instr} {f g : Fault} {j k : Nat} (hf : TakesFault s f j i)
    (hg : TakesFault s g k i) : f = g ∧ j = k := by
  cases i
  case ret | call | ldB | ldMemVx | ldVxMem | skp | sknp =>
    obtain ⟨-, rfl, rfl⟩ := hf
    obtain ⟨-, rfl, rfl⟩ := hg
    exact ⟨rfl, rfl⟩
  case drw =>
    obtain ⟨-, -, rfl, rfl⟩ := hf
    obtain ⟨-, -, rfl, rfl⟩ := hg
    exact ⟨rfl, rfl⟩
  all_goals exact hf.elim

theorem exec_of_takesFault {s : State} {i : Instr} {f : Fault} {k : Nat} (h : TakesFault s f k i) :
    exec i s = .next (s.raise f k) := by
  obtain ⟨g, j, hg, he⟩ | ⟨hnone, -⟩ := exec_cases i s
  · obtain ⟨rfl, rfl⟩ := h.unique hg
    exact he
  · exact absurd h (hnone f k)

theorem exec_of_noFault {s : State} {i : Instr} (h : ∀ f k, ¬TakesFault s f k i) : exec i s = .next (effect s i) := by
  obtain ⟨f, k, hf, -⟩ | ⟨-, he⟩ := exec_cases i s
  · exact absurd hf (h f k)
  · exact he

/-! ### `halted` is not tested (R88): setting it commutes with every part of a cycle -/

theorem State.setHalted_setHalted (s : State) (b c : Bool) : (s.setHalted b).setHalted c = s.setHalted c := rfl

theorem State.beginCycle_setHalted (s : State) (b : Bool) (r : Byte) :
    (s.setHalted b).beginCycle r = (s.beginCycle r).setHalted b := rfl

theorem State.fetched_setHalted (s : State) (b : Bool) (w : Word) :
    (s.setHalted b).fetched w = (s.fetched w).setHalted b := rfl

theorem State.tick_setHalted (s : State) (b : Bool) : (s.setHalted b).tick = s.tick.setHalted b := rfl

theorem State.drawn_setHalted (s : State) (b : Bool) : (s.setHalted b).drawn = s.drawn.setHalted b := rfl

theorem State.nextRand_setHalted (s : State) (b : Bool) : (s.setHalted b).nextRand = s.nextRand := rfl

/-! A fault leaves the flag 1 whatever it was (R207). -/

theorem State.raise_setHalted (s : State) (b : Bool) (f : Fault) (n : Nat) :
    (s.setHalted b).raise f n = (s.raise f n).setHalted true := rfl

theorem State.rejectFetch_setHalted (s : State) (b : Bool) :
    (s.setHalted b).rejectFetch = s.rejectFetch.setHalted true := rfl

theorem State.rejectWord_setHalted (s : State) (b : Bool) :
    (s.setHalted b).rejectWord = s.rejectWord.setHalted true := rfl

/-- No instruction's fault condition reads `halted`. -/
theorem takesFault_setHalted (s : State) (b : Bool) (f : Fault) (k : Nat) (i : Instr) :
    TakesFault (s.setHalted b) f k i ↔ TakesFault s f k i := by
  cases i <;> exact Iff.rfl

theorem State.skipIf_setHalted (s : State) (b c : Bool) : (s.setHalted b).skipIf c = (s.skipIf c).setHalted b := by
  cases c <;> rfl

theorem State.loadRegs_succ (s : State) (n : Nat) :
    s.loadRegs (n + 1) = (s.loadRegs n).setV (BitVec.ofNat 4 n) (s.mem.read (s.I.toNat + n)) := by
  simp [State.loadRegs, List.range_succ]

theorem State.loadRegs_setHalted (s : State) (b : Bool) (n : Nat) :
    (s.setHalted b).loadRegs n = (s.loadRegs n).setHalted b := by
  induction n with
  | zero => rfl
  | succ n ih =>
    rw [State.loadRegs_succ, State.loadRegs_succ, ih]
    rfl

/-- No instruction's effect reads or writes `halted`. -/
theorem effect_setHalted (s : State) (b : Bool) (i : Instr) : effect (s.setHalted b) i = (effect s i).setHalted b := by
  cases i
  case seImm | sneImm | seReg | sneReg | skp | sknp => exact State.skipIf_setHalted s b _
  case ldVxMem x => exact State.loadRegs_setHalted s b _
  case ldVxK x =>
    have scan : (s.setHalted b).firstHeldKey = s.firstHeldKey := rfl
    simp only [effect, scan]
    split <;> rfl
  all_goals rfl

/-- The execute step does the same with `halted = 1`, and leaves it 1. -/
theorem exec_setHalted_true {i : Instr} {s t : State} (h : exec i s = .next t) :
    exec i (s.setHalted true) = .next (t.setHalted true) := by
  obtain ⟨f, k, hf, he⟩ | ⟨hnone, he⟩ := exec_cases i s
  · obtain rfl : s.raise f k = t := by simpa [he] using h
    rw [exec_of_takesFault ((takesFault_setHalted s true f k i).2 hf), State.raise_setHalted]
  · obtain rfl : effect s i = t := by simpa [he] using h
    rw [exec_of_noFault fun f k hf => hnone f k ((takesFault_setHalted s true f k i).1 hf), effect_setHalted]

/-- A cycle does the same with `halted = 1`, and leaves it 1, whether it ends at the fetch, at the decode or at the execute step. -/
theorem runCycle_setHalted_true {rand : Byte} {s t : State} (h : runCycle rand s = .next t) :
    runCycle rand (s.setHalted true) = .next (t.setHalted true) := by
  obtain ⟨hw, rfl⟩ | ⟨w, e, hw, hd, rfl⟩ | ⟨w, i, u, hw, hd, hu, rfl⟩ := runCycle_cases h
  · rw [runCycle_of_noFetch (s := s.setHalted true) hw, State.beginCycle_setHalted, State.rejectFetch_setHalted,
      State.tick_setHalted]
  · rw [runCycle_of_illegal (s := s.setHalted true) hw hd, State.beginCycle_setHalted, State.fetched_setHalted,
      State.rejectWord_setHalted, State.tick_setHalted]
  · rw [runCycle_of_legal (s := s.setHalted true) hw hd, State.beginCycle_setHalted, State.fetched_setHalted,
      exec_setHalted_true hu, thenTick, State.tick_setHalted]

/-- A step is a cycle whose random byte does not depend on `halted`. -/
theorem step_setHalted_true {s t : State} (h : step s = .next t) : step (s.setHalted true) = .next (t.setHalted true) := by
  rw [step, State.nextRand_setHalted, State.drawn_setHalted]
  exact runCycle_setHalted_true h

/-- Settles O18: the step with `halted = 0` is repeated with the flag set. -/
theorem haltedIsNotTested : Obligations.HaltedIsNotTested := by
  intro s t h
  rw [← State.setHalted_setHalted s false true]
  exact step_setHalted_true h

end Sys2Proof.Machine


/-! SUPPORT. The lemmas and proofs of the family 41_flow_and_skip.md. -/

namespace Sys2Proof.Machine

open Sys2Proof.Safety

/-! ### The skip (R8, R103): one statement for every instruction whose meaning is `skipIf` -/

/-- A skip writes pc and no other part, taken or not. -/
theorem State.skipIf_unchangedBut_pc (s : State) (c : Bool) : UnchangedBut [.pc] s (s.skipIf c) := by
  intro p hp
  cases p
  case pc => exact absurd List.mem_cons_self hp
  all_goals simp [Part.same]

/-- An instruction that skips on `P` ends at the post-fetch pc plus 2 if `P` holds and at the post-fetch pc otherwise, with no other
part changed. Memory is no premise: what lies in the two bytes skipped plays no part. -/
theorem exec_skip {i : Instr} {s : State} {P : Prop} [Decidable P] (h : exec i s = .next (s.skipIf (decide P))) :
    ∃ t, exec i s = .next t ∧ t.pc = (if P then s.pc + 2 else s.pc) ∧ UnchangedBut [.pc] s t := by
  have hpc : (s.skipIf (decide P)).pc = if P then s.pc + 2 else s.pc := by
    simp only [State.skipIf_pc, decide_eq_true_eq]
  exact ⟨_, h, hpc, s.skipIf_unchangedBut_pc _⟩

/-- Settles O31: the meaning of each of the four is `skipIf` on its own condition. -/
theorem registerSkips : Obligations.RegisterSkips := by
  intro x y kk s
  have seImm : exec (.seImm x kk) s = .next (s.skipIf (decide (s.getV x = kk))) := rfl
  have sneImm : exec (.sneImm x kk) s = .next (s.skipIf (decide (s.getV x ≠ kk))) := rfl
  have seReg : exec (.seReg x y) s = .next (s.skipIf (decide (s.getV x = s.getV y))) := rfl
  have sneReg : exec (.sneReg x y) s = .next (s.skipIf (decide (s.getV x ≠ s.getV y))) := rfl
  exact ⟨exec_skip seImm, exec_skip sneImm, exec_skip seReg, exec_skip sneReg⟩

end Sys2Proof.Machine


/-! SUPPORT. The lemmas and proofs of the family 42_alu.md. -/

namespace Sys2Proof.Machine

open Sys2Proof.Safety

/-! ### One register written (R10): the value, the other registers and the frame of every instruction whose meaning is `setV` -/

theorem State.setV_getV_same (s : State) (x : Nibble) (v : Byte) : (s.setV x v).getV x = v := by
  rw [State.setV_getV, if_pos rfl]

theorem State.setV_getV_ne (s : State) {x r : Nibble} (v : Byte) (h : r ≠ x) : (s.setV x v).getV r = s.getV r := by
  rw [State.setV_getV, if_neg h]

theorem State.setV_unchangedBut_V (s : State) (x : Nibble) (v : Byte) : UnchangedBut [.V] s (s.setV x v) := by
  intro p hp
  cases p
  case V => exact absurd List.mem_cons_self hp
  all_goals simp [Part.same]

/-- The destination is the only thing written: VF is a register like the others, so it is written only as the destination. -/
theorem State.setV_writesOnly (s : State) (x : Nibble) (v : Byte) :
    (∀ r, r ≠ x → (s.setV x v).getV r = s.getV r) ∧ UnchangedBut [.V] s (s.setV x v) :=
  ⟨fun _ h => s.setV_getV_ne v h, s.setV_unchangedBut_V x v⟩

/-- Settles O32: each of the two is `setV` of its operand. -/
theorem loadsAndMoves : Obligations.LoadsAndMoves := by
  intro x y kk s
  have ldImm : exec (.ldImm x kk) s = .next (s.setV x kk) := rfl
  have ldReg : exec (.ldReg x y) s = .next (s.setV x (s.getV y)) := rfl
  exact ⟨⟨_, ldImm, s.setV_getV_same x _, s.setV_writesOnly x _⟩, ⟨_, ldReg, s.setV_getV_same x _, s.setV_writesOnly x _⟩⟩

/-- Settles O33: the sum of two bytes is the sum modulo 2^8. -/
theorem addImmediateWrapsWithoutFlag : Obligations.AddImmediateWrapsWithoutFlag := by
  intro x kk s
  have addImm : exec (.addImm x kk) s = .next (s.setV x (s.getV x + kk)) := rfl
  have sum : ((s.setV x (s.getV x + kk)).getV x).toNat = ((s.getV x).toNat + kk.toNat) % 256 := by
    rw [State.setV_getV_same, BitVec.toNat_add]
  exact ⟨_, addImm, sum, s.setV_writesOnly x _⟩

/-- Settles O34: the three operations of `BitVec` are bitwise. -/
theorem logicIsBitwiseWithoutFlag : Obligations.LogicIsBitwiseWithoutFlag := by
  intro x y s
  have orReg : exec (.orReg x y) s = .next (s.setV x (s.getV x ||| s.getV y)) := rfl
  have andReg : exec (.andReg x y) s = .next (s.setV x (s.getV x &&& s.getV y)) := rfl
  have xorReg : exec (.xorReg x y) s = .next (s.setV x (s.getV x ^^^ s.getV y)) := rfl
  refine ⟨⟨_, orReg, fun j _ => ?_, s.setV_writesOnly x _⟩, ⟨_, andReg, fun j _ => ?_, s.setV_writesOnly x _⟩,
    ⟨_, xorReg, fun j _ => ?_, s.setV_writesOnly x _⟩⟩
  · rw [State.setV_getV_same, BitVec.getLsbD_or]
  · rw [State.setV_getV_same, BitVec.getLsbD_and]
  · rw [State.setV_getV_same, BitVec.getLsbD_xor]

end Sys2Proof.Machine


/-! SUPPORT. The lemmas and proofs of the family 43_index_memory.md. -/

namespace Sys2Proof.Machine

open Sys2Proof.Safety

/-! ### The address register written (R12): one frame for every instruction whose meaning is a new `I` -/

theorem State.withI_unchangedBut_I (s : State) (i : Word) : UnchangedBut [.I] s { s with I := i } := by
  intro p hp
  apply Part.same_of_fields
  cases p
  case I => exact absurd List.mem_cons_self hp
  all_goals rfl

/-- Settles O40: each of the three replaces `I`, and the new value is its operand's number, the sum modulo 4096, or five times the
byte, which fits in 16 bits. -/
theorem addressRegisterWrites : Obligations.AddressRegisterWrites := by
  intro nnn x s
  have ldI : exec (.ldI nnn) s = .next { s with I := addrOf nnn } := rfl
  have addI : exec (.addI x) s = .next { s with I := stepI s.I (s.getV x) } := rfl
  have ldF : exec (.ldF x) s = .next { s with I := fontAddr (s.getV x) } := rfl
  exact ⟨⟨_, ldI, addrOf_toNat nnn, s.withI_unchangedBut_I _⟩, ⟨_, addI, stepI_toNat s.I _, s.withI_unchangedBut_I _⟩,
    ⟨_, ldF, fontAddr_toNat _, s.withI_unchangedBut_I _⟩⟩

end Sys2Proof.Machine


/-! SUPPORT. The layer the other families share: what each operation writes, field by field, and every outcome of a step. -/

namespace Sys2Proof.Safety

open Sys2Proof.Machine

/-- The part is held alike in both states. `Part.same` compares what is read; this also fixes the form in which memory is kept. -/
def Part.sameField (s t : State) : Part → Prop
  | .V => t.V = s.V
  | .I => t.I = s.I
  | .pc => t.pc = s.pc
  | .stack => t.stack = s.stack
  | .sp => t.sp = s.sp
  | .DT => t.DT = s.DT
  | .ST => t.ST = s.ST
  | .FB => t.FB = s.FB
  | .key => t.key = s.key
  | .halted => t.halted = s.halted
  | .drawReady => t.drawReady = s.drawReady
  | .ir => t.ir = s.ir
  | .mem => t.mem = s.mem
  | .rand => t.rand = s.rand
  | .randIdx => t.randIdx = s.randIdx
  | .beep => t.beep = s.beep
  | .diag => t.diag = s.diag

theorem Part.sameField.same {s t : State} {p : Part} (h : Part.sameField s t p) : Part.same s t p :=
  Part.same_of_fields p (by cases p <;> exact h)

theorem Part.sameField.trans {s t u : State} {p : Part} (h : Part.sameField s t p) (h' : Part.sameField t u p) :
    Part.sameField s u p := by
  cases p <;> exact Eq.trans h' h

/-- Every part but those listed is held alike. -/
def FieldsBut (changed : List Part) (s t : State) : Prop := ∀ p, p ∉ changed → Part.sameField s t p

theorem FieldsBut.refl (s : State) : FieldsBut [] s s := by
  intro p _
  cases p <;> rfl

theorem FieldsBut.trans {ps qs : List Part} {s t u : State} (h : FieldsBut ps s t) (h' : FieldsBut qs t u) :
    FieldsBut (ps ++ qs) s u := by
  intro p hp
  rw [List.mem_append, not_or] at hp
  exact (h p hp.1).trans (h' p hp.2)

theorem FieldsBut.mono {ps qs : List Part} {s t : State} (h : FieldsBut ps s t) (hq : ps ⊆ qs) : FieldsBut qs s t :=
  fun p hp => h p fun hm => hp (hq hm)

theorem FieldsBut.unchangedBut {ps : List Part} {s t : State} (h : FieldsBut ps s t) : UnchangedBut ps s t :=
  fun p hp => (h p hp).same

end Sys2Proof.Safety

namespace Sys2Proof.Machine

open Sys2Proof.Safety Sys2Proof.Statement

/-! ### What each operation of the state writes -/

theorem State.setV_fieldsBut (s : State) (x : Nibble) (v : Byte) : FieldsBut [.V] s (s.setV x v) := by
  intro p hp
  cases p
  case V => simp at hp
  all_goals rfl

theorem State.jumpTo_fieldsBut (s : State) (a : Word) : FieldsBut [.pc] s (s.jumpTo a) := by
  intro p hp
  cases p
  case pc => simp at hp
  all_goals rfl

theorem State.skipIf_fieldsBut (s : State) (c : Bool) : FieldsBut [.pc] s (s.skipIf c) := by
  cases c
  case true => exact s.jumpTo_fieldsBut (s.pc + 2)
  case false => exact (FieldsBut.refl s).mono (by simp)

theorem State.loadRegs_fieldsBut (s : State) (n : Nat) : FieldsBut [.V] s (s.loadRegs n) := by
  rw [State.loadRegs_eq]
  intro p hp
  cases p
  case V => simp at hp
  all_goals rfl

theorem State.enterFault_fieldsBut (s : State) (f : Fault) (a : Word) (n : Nat) :
    FieldsBut [.halted, .diag] s (s.enterFault f a n) := by
  intro p hp
  cases p
  case halted | diag => simp at hp
  all_goals rfl

theorem State.raise_fieldsBut (s : State) (f : Fault) (n : Nat) : FieldsBut [.halted, .diag] s (s.raise f n) :=
  s.enterFault_fieldsBut f _ n

theorem State.tick_fieldsBut (s : State) : FieldsBut [.DT, .ST, .beep] s s.tick := by
  intro p hp
  cases p
  case DT | ST | beep => simp at hp
  all_goals rfl

theorem State.beginCycle_fieldsBut (s : State) (r : Byte) : FieldsBut [.rand, .beep, .diag] s (s.beginCycle r) := by
  intro p hp
  cases p
  case rand | beep | diag => simp at hp
  all_goals rfl

theorem State.drawn_fieldsBut (s : State) : FieldsBut [.randIdx] s s.drawn := by
  intro p hp
  cases p
  case randIdx => simp at hp
  all_goals rfl

theorem State.fetched_fieldsBut (s : State) (w : Word) : FieldsBut [.ir, .pc] s (s.fetched w) := by
  intro p hp
  cases p
  case ir | pc => simp at hp
  all_goals rfl

theorem afterFetch_fieldsBut (s : State) (w : Word) :
    FieldsBut [.randIdx, .rand, .beep, .diag, .ir, .pc] s (afterFetch s w) :=
  (s.drawn_fieldsBut.trans (s.drawn.beginCycle_fieldsBut s.nextRand)).trans (State.fetched_fieldsBut _ w)

@[simp] theorem afterFetch_pc (s : State) (w : Word) : (afterFetch s w).pc = s.pc + 2 := rfl
@[simp] theorem afterFetch_ir (s : State) (w : Word) : (afterFetch s w).ir = w := rfl

/-! ### What each instruction writes -/

/-- The parts of the state an instruction's effect may change (R10 to R22, R40, R84). -/
def writtenParts : Instr → List Part
  | .cls => [.FB]
  | .ret => [.pc, .sp]
  | .jp _ | .jpV0 _ | .seImm _ _ | .sneImm _ _ | .seReg _ _ | .sneReg _ _ | .skp _ | .sknp _ => [.pc]
  | .call _ => [.sp, .stack, .pc]
  | .ldImm _ _ | .addImm _ _ | .ldReg _ _ | .orReg _ _ | .andReg _ _ | .xorReg _ _ | .addReg _ _ | .subReg _ _ | .shr _ _
  | .subn _ _ | .shl _ _ | .rnd _ _ | .ldVxDT _ | .ldVxMem _ => [.V]
  | .ldI _ | .addI _ | .ldF _ => [.I]
  | .drw _ _ _ => [.V, .FB, .drawReady]
  | .ldDTVx _ => [.DT]
  | .ldSTVx _ => [.ST]
  | .ldB _ | .ldMemVx _ => [.mem]
  | .ldVxK _ => [.V, .pc]

/-- A flag in VF and then a result are a write of registers alone. -/
theorem State.setV_setV_fieldsBut (s : State) (x y : Nibble) (v w : Byte) : FieldsBut [.V] s ((s.setV x v).setV y w) :=
  ((s.setV_fieldsBut x v).trans (State.setV_fieldsBut _ y w)).mono (by simp)

/-- The frame of every effect, said once. -/
theorem effect_fieldsBut (s : State) (i : Instr) : FieldsBut (writtenParts i) s (effect s i) := by
  cases i
  case jp | jpV0 => exact s.jumpTo_fieldsBut _
  case seImm | sneImm | seReg | sneReg | skp | sknp => exact s.skipIf_fieldsBut _
  case ldImm | addImm | ldReg | orReg | andReg | xorReg | rnd | ldVxDT => exact s.setV_fieldsBut _ _
  case addReg | subReg | shr | subn | shl => exact s.setV_setV_fieldsBut _ _ _ _
  case ldVxMem => exact s.loadRegs_fieldsBut _
  case ldVxK x =>
    simp only [effect, writtenParts]
    split
    · exact (s.jumpTo_fieldsBut _).mono (by simp)
    · exact (s.setV_fieldsBut x _).mono (by simp)
  case cls =>
    intro p hp
    cases p
    case FB => simp [writtenParts] at hp
    all_goals rfl
  case ret =>
    intro p hp
    cases p
    case pc | sp => simp [writtenParts] at hp
    all_goals rfl
  case call =>
    intro p hp
    cases p
    case sp | stack | pc => simp [writtenParts] at hp
    all_goals rfl
  case ldI | addI | ldF =>
    intro p hp
    cases p
    case I => simp [writtenParts] at hp
    all_goals rfl
  case drw =>
    intro p hp
    cases p
    case V | FB | drawReady => simp [writtenParts] at hp
    all_goals rfl
  case ldDTVx =>
    intro p hp
    cases p
    case DT => simp [writtenParts] at hp
    all_goals rfl
  case ldSTVx =>
    intro p hp
    cases p
    case ST => simp [writtenParts] at hp
    all_goals rfl
  case ldB | ldMemVx =>
    intro p hp
    cases p
    case mem => simp [writtenParts] at hp
    all_goals rfl

theorem effect_unchangedBut (s : State) (i : Instr) : UnchangedBut (writtenParts i) s (effect s i) :=
  (effect_fieldsBut s i).unchangedBut

/-! ### Every outcome of the execute step and of a step -/

/-- Everything an execute step can have answered: a fault taken, or the instruction's effect. -/
theorem exec_next_cases {i : Instr} {s t : State} (h : exec i s = .next t) :
    (∃ f k, TakesFault s f k i ∧ t = s.raise f k) ∨ ((∀ f k, ¬TakesFault s f k i) ∧ t = effect s i) := by
  obtain ⟨f, k, hf, he⟩ | ⟨hnone, he⟩ := exec_cases i s
  · exact .inl ⟨f, k, hf, by simpa [he] using h.symm⟩
  · exact .inr ⟨hnone, by simpa [he] using h.symm⟩

/-- Every execute step answers a next state (R80). -/
theorem exec_answers (i : Instr) (s : State) : ∃ t, exec i s = .next t := by
  obtain ⟨f, k, -, he⟩ | ⟨-, he⟩ := exec_cases i s
  · exact ⟨_, he⟩
  · exact ⟨_, he⟩

/-- Every cycle answers a next state (R80). -/
theorem runCycle_answers (rand : Byte) (s : State) : ∃ t, runCycle rand s = .next t := by
  cases hw : s.mem.readWord s.pc.toNat with
  | none => exact ⟨_, runCycle_of_noFetch hw⟩
  | some w =>
    cases hd : decodeWord w with
    | error e => exact ⟨_, runCycle_of_illegal hw hd⟩
    | ok i =>
      obtain ⟨u, hu⟩ := exec_answers i ((s.beginCycle rand).fetched w)
      exact ⟨u.tick, by rw [runCycle_of_legal hw hd, hu, thenTick]⟩

/-- Settles O5: the execute step has an outcome for each instruction, and a cycle one for each fetch and decode. -/
theorem everyCycleAnswersANextState : Obligations.EveryCycleAnswersANextState :=
  ⟨exec_answers, runCycle_answers, fun s => runCycle_answers s.nextRand s.drawn⟩

/-- A step on a legal word is the execute step of its instruction after the fetch, then the tick (R81). -/
theorem step_of_legal {s : State} {w : Word} {i : Instr} (hw : s.mem.readWord s.pc.toNat = some w)
    (hd : decodeWord w = .ok i) : step s = thenTick (exec i (afterFetch s w)) :=
  runCycle_of_legal (s := s.drawn) hw hd

/-- The four ways a step goes: no fetch, an illegal word, a fault of the instruction, the instruction's effect. -/
theorem step_outcomes {s t : State} (h : step s = .next t) :
    (s.mem.readWord s.pc.toNat = none ∧ t = (s.drawn.beginCycle s.nextRand).rejectFetch.tick) ∨
    (∃ w e, s.mem.readWord s.pc.toNat = some w ∧ decodeWord w = .error e ∧ t = (afterFetch s w).rejectWord.tick) ∨
    (∃ w i f k, s.mem.readWord s.pc.toNat = some w ∧ decodeWord w = .ok i ∧ TakesFault (afterFetch s w) f k i ∧
      t = ((afterFetch s w).raise f k).tick) ∨
    (∃ w i, s.mem.readWord s.pc.toNat = some w ∧ decodeWord w = .ok i ∧ (∀ f k, ¬TakesFault (afterFetch s w) f k i) ∧
      t = (effect (afterFetch s w) i).tick) := by
  obtain hnone | hill | ⟨w, i, u, hw, hd, hu, rfl⟩ := step_cases h
  · exact .inl hnone
  · exact .inr (.inl hill)
  · obtain ⟨f, k, hf, rfl⟩ | ⟨hno, rfl⟩ := exec_next_cases hu
    · exact .inr (.inr (.inl ⟨w, i, f, k, hw, hd, hf, rfl⟩))
    · exact .inr (.inr (.inr ⟨w, i, hw, hd, hno, rfl⟩))

end Sys2Proof.Machine


/-! SUPPORT. The proofs about the decoder and the opcode map (30_encoding.md). -/

namespace Sys2Proof

/-! ### The round trip -/

/-- An instruction's word decodes to it: its fields are the operands. -/
@[simp] theorem decodeWord_encode (i : Instr) : decodeWord (encode i) = .ok i := by
  cases i
  case cls | ret => rfl
  all_goals simp [encode, decodeWord, decodeFamily8, decodeFamilyE, decodeFamilyF]

/-- Settles O6: the word by `decodeWord_encode`, the bytes because the two bytes of a word make it again. -/
theorem decodeOfEncode : Obligations.DecodeOfEncode := by
  intro i rest
  refine ⟨decodeWord_encode i, ?_⟩
  simp [encodeBytes, decode, Except.map]

/-- A word of family `op` with the address field it has. -/
theorem encodeA_of_fieldOp {w : Word} {op : Nat} (h : (fieldOp w).toNat = op) : encodeA (BitVec.ofNat 4 op) (fieldNNN w) = w := by
  subst h
  simpa using encodeA_fields w

theorem encodeXK_of_fieldOp {w : Word} {op : Nat} (h : (fieldOp w).toNat = op) :
    encodeXK (BitVec.ofNat 4 op) (fieldX w) (fieldKK w) = w := by
  subst h
  simpa using encodeXK_fields w

theorem encodeXYN_of_fieldOp {w : Word} {op : Nat} (h : (fieldOp w).toNat = op) :
    encodeXYN (BitVec.ofNat 4 op) (fieldX w) (fieldY w) (fieldN w) = w := by
  subst h
  simpa using encodeXYN_fields w

theorem encode_of_decodeFamily0 {w : Word} {i : Instr} (h : decodeFamily0 w = .ok i) : encode i = w := by
  unfold decodeFamily0 at h
  split at h
  · cases h; simp_all [encode]
  · split at h
    · cases h; simp_all [encode]
    · cases h

theorem encode_of_decodeFamily8 {x y n : Nibble} {i : Instr} (h : decodeFamily8 x y n = .ok i) : encode i = encodeXYN 8 x y n := by
  unfold decodeFamily8 at h
  split at h
  all_goals cases h
  all_goals exact congrArg (encodeXYN 8 x y) (BitVec.eq_of_toNat_eq (Eq.symm ‹_›))

theorem encode_of_decodeFamilyE {x : Nibble} {kk : Byte} {i : Instr} (h : decodeFamilyE x kk = .ok i) :
    encode i = encodeXK 0xE x kk := by
  unfold decodeFamilyE at h
  split at h
  all_goals cases h
  all_goals exact congrArg (encodeXK 0xE x) (BitVec.eq_of_toNat_eq (Eq.symm ‹_›))

theorem encode_of_decodeFamilyF {x : Nibble} {kk : Byte} {i : Instr} (h : decodeFamilyF x kk = .ok i) :
    encode i = encodeXK 0xF x kk := by
  unfold decodeFamilyF at h
  split at h
  all_goals cases h
  all_goals exact congrArg (encodeXK 0xF x) (BitVec.eq_of_toNat_eq (Eq.symm ‹_›))

/-- A word that decodes is the encoding of its instruction, family by family: `op` is the family's number, and what the family
branches on is the rest of the word. -/
theorem encode_of_decodeWord {w : Word} {i : Instr} (h : decodeWord w = .ok i) : encode i = w := by
  unfold decodeWord at h
  dsimp only at h
  split at h
  case h_1 => exact encode_of_decodeFamily0 h
  case h_9 hop => exact (encode_of_decodeFamily8 h).trans (encodeXYN_of_fieldOp hop)
  case h_15 hop => exact (encode_of_decodeFamilyE h).trans (encodeXK_of_fieldOp hop)
  case h_16 =>
    have hlt : (fieldOp w).toNat < 16 := (fieldOp w).isLt
    simp only [imp_false] at *
    have hop : (fieldOp w).toNat = 15 := by omega
    exact (encode_of_decodeFamilyF h).trans (encodeXK_of_fieldOp hop)
  case h_6 | h_10 =>
    split at h
    · next hop hn =>
      cases h
      exact Eq.trans (by rw [encode, hn]; rfl) (encodeXYN_of_fieldOp hop)
    · cases h
  case h_14 hop => cases h; exact encodeXYN_of_fieldOp hop
  case h_2 | h_3 | h_11 | h_12 => cases h; exact encodeA_of_fieldOp ‹_›
  case h_4 | h_5 | h_7 | h_8 | h_13 => cases h; exact encodeXK_of_fieldOp ‹_›

/-- Settles O7. -/
theorem encodeOfDecode : Obligations.EncodeOfDecode := fun _ _ => encode_of_decodeWord

/-! ### The opcode map -/

/-- The mask of formats A, XK and XYN keeps `op`. -/
theorem fieldOp_mask (w : Word) : fieldOp (w &&& 0xF000#16) = fieldOp w := by
  rw [← encodeA_fields w, Laws.EncodesItsRow.mask_encodeA, fieldOp_encodeA, fieldOp_encodeA]

/-- The mask of format XY keeps `op` and `n`. -/
theorem fields_maskXY (w : Word) : fieldOp (w &&& 0xF00F#16) = fieldOp w ∧ fieldN (w &&& 0xF00F#16) = fieldN w := by
  rw [← encodeXYN_fields w, Laws.EncodesItsRow.mask_encodeXYN]
  simp

/-- The mask of format XS keeps `op` and `kk`. -/
theorem fields_maskXS (w : Word) : fieldOp (w &&& 0xF0FF#16) = fieldOp w ∧ fieldKK (w &&& 0xF0FF#16) = fieldKK w := by
  rw [← encodeXK_fields w, Laws.EncodesItsRow.mask_encodeXK]
  simp

/-- A word that an instruction's row accepts decodes: it has the digits of the row, and they are all the decoder branches on. -/
theorem decodeWord_of_row {i : Instr} {w : Word} (h : i.row.accepts w = true) : ∃ j, decodeWord w = .ok j := by
  have hbits : w &&& i.row.mask = i.row.bits := beq_iff_eq.mp h
  cases i
  all_goals simp only [Instr.row] at hbits
  case cls | ret =>
    have hw : w &&& 0xFFFF#16 = w := BitVec.and_allOnes
    rw [hw.symm.trans hbits]
    exact ⟨_, rfl⟩
  case seReg | sneReg | ldReg | orReg | andReg | xorReg | addReg | subReg | shr | subn | shl =>
    obtain ⟨hop, hn⟩ := fields_maskXY w
    rw [decodeWord, ← hop, ← hn, hbits]
    exact ⟨_, rfl⟩
  case skp | sknp | ldVxDT | ldDTVx | ldSTVx | addI | ldF | ldB | ldMemVx | ldVxMem | ldVxK =>
    obtain ⟨hop, hkk⟩ := fields_maskXS w
    rw [decodeWord, ← hop, ← hkk, hbits]
    exact ⟨_, rfl⟩
  all_goals
    rw [decodeWord, ← fieldOp_mask w, hbits]
    exact ⟨_, rfl⟩

/-- One instruction for each row of the opcode map, in its order. -/
def rowInstrs : List Instr :=
  [.cls, .ret, .jp 0, .call 0, .seImm 0 0, .sneImm 0 0, .seReg 0 0, .sneReg 0 0, .ldImm 0 0, .addImm 0 0, .ldReg 0 0, .orReg 0 0,
   .andReg 0 0, .xorReg 0 0, .addReg 0 0, .subReg 0 0, .shr 0 0, .subn 0 0, .shl 0 0, .ldI 0, .jpV0 0, .rnd 0 0, .drw 0 0 0, .skp 0,
   .sknp 0, .ldVxDT 0, .ldDTVx 0, .ldSTVx 0, .addI 0, .ldF 0, .ldB 0, .ldMemVx 0, .ldVxMem 0, .ldVxK 0]

theorem map_row_rowInstrs : rowInstrs.map Instr.row = opcodeMap := rfl

theorem row_mem_opcodeMap (i : Instr) : i.row ∈ opcodeMap := by
  cases i <;> simp [Instr.row, opcodeMap, flowRows, aluRows, indexRows, systemRows]

theorem row_accepts_encode (i : Instr) : i.row.accepts (encode i) = true := by
  cases i
  case cls | ret => rfl
  case seReg | sneReg | ldReg | orReg | andReg | xorReg | addReg | subReg | shr | subn | shl =>
    exact beq_iff_eq.mpr (Laws.EncodesItsRow.mask_encodeXYN _ _ _ _)
  case skp | sknp | ldVxDT | ldDTVx | ldSTVx | addI | ldF | ldB | ldMemVx | ldVxMem | ldVxK =>
    exact beq_iff_eq.mpr (Laws.EncodesItsRow.mask_encodeXK _ _ _)
  all_goals exact beq_iff_eq.mpr (Laws.EncodesItsRow.mask_encodeA _ _)

/-- A word decodes to an instruction whose row accepts it. -/
theorem row_accepts_of_decodeWord {w : Word} {i : Instr} (h : decodeWord w = .ok i) : i.row.accepts w = true := by
  rw [← encode_of_decodeWord h]
  exact row_accepts_encode i

theorem decodeWord_ok_iff_wordLegal (w : Word) : (∃ i, decodeWord w = .ok i) ↔ wordLegal w = true := by
  rw [wordLegal, List.any_eq_true]
  constructor
  · rintro ⟨i, hi⟩
    exact ⟨i.row, row_mem_opcodeMap i, row_accepts_of_decodeWord hi⟩
  · rintro ⟨r, hr, hw⟩
    rw [← map_row_rowInstrs, List.mem_map] at hr
    obtain ⟨i, -, rfl⟩ := hr
    exact decodeWord_of_row hw

/-- Settles O8. -/
theorem decoderAcceptsTheOpcodeMap : Obligations.DecoderAcceptsTheOpcodeMap := fun w =>
  ⟨decodeWord_ok_iff_wordLegal w, fun i hi => ⟨row_mem_opcodeMap i, row_accepts_of_decodeWord hi⟩⟩

/-- Two rows that differ in a digit both fix accept no word in common. -/
theorem not_accepts_both {p q : OpcodeRow} (h : p.bits &&& q.mask ≠ q.bits &&& p.mask) (w : Word) :
    ¬(p.accepts w = true ∧ q.accepts w = true) := by
  rintro ⟨hp, hq⟩
  apply h
  rw [← beq_iff_eq.mp hp, ← beq_iff_eq.mp hq, BitVec.and_assoc, BitVec.and_assoc, BitVec.and_comm p.mask]

/-- Settles O9: any two rows differ in a digit that both fix. -/
theorem opcodeRowsDoNotOverlap : Obligations.OpcodeRowsDoNotOverlap := by
  have digits : opcodeMap.Pairwise fun p q => p.bits &&& q.mask ≠ q.bits &&& p.mask := by decide
  exact ⟨rfl, digits.imp not_accepts_both⟩

/-! ### The illegal words (R66) -/

theorem fieldOp_toNat (w : Word) : (fieldOp w).toNat = w.toNat / 4096 := by
  have := w.isLt
  simp only [fieldOp, BitVec.extractLsb'_toNat, Nat.shiftRight_eq_div_pow]
  omega

theorem fieldN_toNat (w : Word) : (fieldN w).toNat = w.toNat % 16 := by
  simp [fieldN, BitVec.extractLsb'_toNat]

theorem fieldKK_toNat (w : Word) : (fieldKK w).toNat = w.toNat % 256 := by
  simp [fieldKK, BitVec.extractLsb'_toNat]

theorem decodeFamily0_error_iff {w : Word} {e : DecodeReject} :
    decodeFamily0 w = .error e ↔ e = .family0 ∧ w.toNat ≠ 0x00E0 ∧ w.toNat ≠ 0x00EE := by
  have toNat_eq (v : Word) : w.toNat = v.toNat ↔ w = v := BitVec.toNat_inj
  have hcls : w.toNat = 0x00E0 ↔ w = 0x00E0 := toNat_eq 0x00E0
  have hret : w.toNat = 0x00EE ↔ w = 0x00EE := toNat_eq 0x00EE
  rw [Ne, Ne, hcls, hret, decodeFamily0]
  split
  · simp [*]
  · split <;> simp_all [eq_comm]

theorem decodeFamily8_error_iff {x y n : Nibble} {e : DecodeReject} :
    decodeFamily8 x y n = .error e ↔ e = .family8 ∧ n.toNat ∈ [0x8, 0x9, 0xA, 0xB, 0xC, 0xD, 0xF] := by
  unfold decodeFamily8
  have hlt : n.toNat < 16 := n.isLt
  split
  case h_10 =>
    simp only [imp_false] at *
    have hmem : n.toNat ∈ [0x8, 0x9, 0xA, 0xB, 0xC, 0xD, 0xF] := by
      simp only [List.mem_cons, List.not_mem_nil, or_false]
      omega
    simp [hmem, eq_comm (a := e)]
  all_goals simp [*]

theorem decodeFamilyE_error_iff {x : Nibble} {kk : Byte} {e : DecodeReject} :
    decodeFamilyE x kk = .error e ↔ e = .familyE ∧ kk.toNat ∉ [0x9E, 0xA1] := by
  unfold decodeFamilyE
  split
  case h_3 =>
    simp only [imp_false] at *
    simp [*, eq_comm (a := e)]
  all_goals simp [*]

theorem decodeFamilyF_error_iff {x : Nibble} {kk : Byte} {e : DecodeReject} :
    decodeFamilyF x kk = .error e ↔
      e = .familyF ∧ kk.toNat ∉ [0x07, 0x0A, 0x15, 0x18, 0x1E, 0x29, 0x33, 0x55, 0x65] := by
  unfold decodeFamilyF
  split
  case h_10 =>
    simp only [imp_false] at *
    simp [*, eq_comm (a := e)]
  all_goals simp [*]

theorem ite_ok_error_iff {n : Nibble} {i : Instr} {d e : DecodeReject} :
    (if n = 0 then Except.ok i else .error d) = .error e ↔ e = d ∧ n.toNat ≠ 0 := by
  have hn : n.toNat = 0 ↔ n = 0 := BitVec.toNat_inj (y := (0 : Nibble))
  rw [Ne, hn]
  split
  · next h => simp [h]
  · next h => exact ⟨fun he => ⟨(Except.error.inj he).symm, h⟩, fun he => congrArg _ he.1.symm⟩

/-- A word is rejected by one family, that of its first digit, on what the family branches on (R66). -/
theorem decodeWord_error_iff {w : Word} {e : DecodeReject} : decodeWord w = .error e ↔
    (w.toNat / 4096 = 0x0 ∧ e = .family0 ∧ w.toNat ≠ 0x00E0 ∧ w.toNat ≠ 0x00EE) ∨
    (w.toNat / 4096 = 0x5 ∧ e = .family5 ∧ w.toNat % 16 ≠ 0) ∨
    (w.toNat / 4096 = 0x8 ∧ e = .family8 ∧ w.toNat % 16 ∈ [0x8, 0x9, 0xA, 0xB, 0xC, 0xD, 0xF]) ∨
    (w.toNat / 4096 = 0x9 ∧ e = .family9 ∧ w.toNat % 16 ≠ 0) ∨
    (w.toNat / 4096 = 0xE ∧ e = .familyE ∧ w.toNat % 256 ∉ [0x9E, 0xA1]) ∨
    (w.toNat / 4096 = 0xF ∧ e = .familyF ∧
      w.toNat % 256 ∉ [0x07, 0x0A, 0x15, 0x18, 0x1E, 0x29, 0x33, 0x55, 0x65]) := by
  have hlt : (fieldOp w).toNat < 16 := (fieldOp w).isLt
  rw [← fieldOp_toNat, ← fieldN_toNat, ← fieldKK_toNat, decodeWord]
  split
  case h_1 hop => rw [hop, decodeFamily0_error_iff]; simp
  case h_6 hop => rw [hop, ite_ok_error_iff]; simp
  case h_9 hop => rw [hop, decodeFamily8_error_iff]; simp
  case h_10 hop => rw [hop, ite_ok_error_iff]; simp
  case h_15 hop => rw [hop, decodeFamilyE_error_iff]; simp
  case h_16 =>
    simp only [imp_false] at *
    have hop : (fieldOp w).toNat = 15 := by omega
    rw [hop, decodeFamilyF_error_iff]
    simp
  all_goals simp [*]

/-- Settles O10: each family's line is the disjunct of `decodeWord_error_iff` that names it. -/
theorem illegalWordsAreRejectedByFamily : Obligations.IllegalWordsAreRejectedByFamily := by
  intro w
  simp only [ne_eq, decodeWord_error_iff]
  simp

/-- Settles O11: each of the twelve words is closed. -/
theorem specWordsDecode : Obligations.SpecWordsDecode := by
  unfold Obligations.SpecWordsDecode
  decide

end Sys2Proof


/-! SUPPORT. The proofs about the invariant of R27 (10_state.md §10): every cycle and every host operation keeps it. -/

namespace Sys2Proof.Machine

open Sys2Proof.Safety Sys2Proof.Statement

/-- R27 with the stack read by its own accessor. -/
theorem machineInv_iff {s : State} : MachineInv s ↔
    s.I.toNat ≤ 4095 ∧ s.pc.toNat ≤ 4098 ∧ (∀ k, StackCellOk (s.getStack k)) ∧ s.mem.wf = true :=
  ⟨fun ⟨hI, hpc, hst, hm⟩ => ⟨hI, hpc, fun k => hst k.toFin, hm⟩,
    fun ⟨hI, hpc, hst, hm⟩ => ⟨hI, hpc, fun k => hst (BitVec.ofFin k), hm⟩⟩

/-- R27 speaks of four fields, so a change to others keeps it. -/
theorem machineInv_of_fieldsBut {ps : List Part} {s t : State} (h : MachineInv s) (hf : FieldsBut ps s t)
    (hps : ∀ p ∈ [Part.I, .pc, .stack, .mem], p ∉ ps) : MachineInv t := by
  have hI : t.I = s.I := hf .I (hps _ (by simp))
  have hpc : t.pc = s.pc := hf .pc (hps _ (by simp))
  have hst : t.stack = s.stack := hf .stack (hps _ (by simp))
  have hm : t.mem = s.mem := hf .mem (hps _ (by simp))
  rw [MachineInv, hI, hpc, hst, hm]
  exact h

/-- R27 in the state an instruction runs in: pc is a post-fetch pc, so it may be pushed, and a skip ends at 4098 at most. -/
def FetchedInv (s : State) : Prop :=
  s.I.toNat ≤ 4095 ∧ (2 ≤ s.pc.toNat ∧ s.pc.toNat ≤ 4096) ∧ (∀ k, StackCellOk (s.getStack k)) ∧ s.mem.wf = true

theorem FetchedInv.machineInv {s : State} (h : FetchedInv s) : MachineInv s := by
  obtain ⟨hI, ⟨-, hpc⟩, hst, hm⟩ := h
  exact machineInv_iff.2 ⟨hI, by omega, hst, hm⟩

/-- A fetch that succeeds was at 4094 at most (R82), so the state after it has a post-fetch pc. -/
theorem fetchedInv_fetched {s : State} {w : Word} (h : MachineInv s) (hw : s.mem.readWord s.pc.toNat = some w) :
    FetchedInv (s.fetched w) := by
  obtain ⟨hI, -, hst, hm⟩ := machineInv_iff.1 h
  obtain ⟨hle, -⟩ := readWord_some_bound hw
  have hpc : (s.fetched w).pc.toNat = s.pc.toNat + 2 := by
    rw [State.fetched_pc, BitVec.toNat_add]
    exact Nat.mod_eq_of_lt (by simp; omega)
  exact ⟨hI, by omega, hst, hm⟩

/-! ### The four clauses of R27 after an instruction's effect -/

/-- `I` is written with a 12-bit address, with a sum modulo 4096, or with five times a byte (R140 to R142). -/
theorem effect_I_le {s : State} (h : FetchedInv s) (i : Instr) : (effect s i).I.toNat ≤ 4095 := by
  by_cases hp : Part.I ∈ writtenParts i
  swap
  · have hsame : (effect s i).I = s.I := effect_fieldsBut s i .I hp
    exact hsame ▸ h.1
  cases i
  case ldI nnn =>
    have hlt : nnn.toNat < 4096 := nnn.isLt
    have hI : (effect s (.ldI nnn)).I.toNat = nnn.toNat := addrOf_toNat nnn
    omega
  case addI x =>
    have hI : (effect s (.addI x)).I.toNat = (s.I.toNat + (s.getV x).toNat) % 4096 := stepI_toNat _ _
    omega
  case ldF x =>
    have hlt : (s.getV x).toNat < 256 := (s.getV x).isLt
    have hI : (effect s (.ldF x)).I.toNat = (s.getV x).toNat * 5 := fontAddr_toNat _
    omega
  all_goals simp [writtenParts] at hp

theorem stackCellOk_le {w : Word} (h : StackCellOk w) : w.toNat ≤ 4096 := by
  obtain rfl | ⟨-, h⟩ := h
  · simp
  · exact h

theorem toNat_addrOf_le (nnn : Addr12) : (addrOf nnn).toNat ≤ 4098 := by
  have hlt : nnn.toNat < 4096 := nnn.isLt
  rw [addrOf_toNat]
  omega

/-- A skip from a post-fetch pc ends at 4098 at most. -/
theorem skipIf_pc_le {s : State} (h : FetchedInv s) (c : Bool) : (s.skipIf c).pc.toNat ≤ 4098 := by
  obtain ⟨-, ⟨-, hpc⟩, -⟩ := h
  rw [State.skipIf_pc]
  split <;> bv_omega

/-- pc is written with a 12-bit address, with one modulo 256, from the stack, by a skip, or with the instruction's own address (R84). -/
theorem effect_pc_le {s : State} (h : FetchedInv s) (i : Instr) : (effect s i).pc.toNat ≤ 4098 := by
  obtain ⟨-, ⟨hlo, hpc⟩, hst, -⟩ := id h
  by_cases hp : Part.pc ∈ writtenParts i
  swap
  · have hsame : (effect s i).pc = s.pc := effect_fieldsBut s i .pc hp
    rw [hsame]
    omega
  cases i
  case ret => exact (stackCellOk_le (hst s.sp)).trans (by omega)
  case jp nnn | call nnn => exact toNat_addrOf_le nnn
  case jpV0 nnn =>
    have htarget : (effect s (.jpV0 nnn)).pc.toNat = (nnn.toNat + (s.getV 0).toNat) % 256 := jumpV0Target_toNat _ _
    omega
  case seImm | sneImm | seReg | sneReg | skp | sknp => exact skipIf_pc_le h _
  case ldVxK x =>
    simp only [effect]
    split
    · rw [State.jumpTo_pc]
      bv_omega
    · rw [State.setV_pc]
      omega
  all_goals simp [writtenParts] at hp

/-- The stack is written with a post-fetch pc (R102). -/
theorem effect_stackCellOk {s : State} (h : FetchedInv s) (i : Instr) (k : Nibble) : StackCellOk ((effect s i).getStack k) := by
  obtain ⟨-, hpc, hst, -⟩ := h
  by_cases hp : Part.stack ∈ writtenParts i
  swap
  · have hsame : (effect s i).stack = s.stack := effect_fieldsBut s i .stack hp
    rw [State.getStack_of_stack hsame]
    exact hst k
  cases i
  case call nnn =>
    simp only [effect, State.jumpTo_getStack, State.setStack_getStack]
    split
    · exact .inr hpc
    · exact hst k
  all_goals simp [writtenParts] at hp

/-- Memory is written within a footprint that lies below 4096 (R41). -/
theorem effect_mem_wf {s : State} {i : Instr} (h : FetchedInv s) (hno : ∀ f k, ¬TakesFault s f k i) : (effect s i).mem.wf = true := by
  obtain ⟨-, -, -, hm⟩ := h
  by_cases hp : Part.mem ∈ writtenParts i
  swap
  · have hsame : (effect s i).mem = s.mem := effect_fieldsBut s i .mem hp
    exact hsame ▸ hm
  cases i
  case ldB x =>
    have hfits : s.I.toNat + 2 ≤ 4095 := by
      by_contra hpast
      exact hno _ _ ⟨by omega, rfl, rfl⟩
    exact Memory.wf_writeBytes hm (by simp only [bcdDigits, List.length_cons, List.length_nil]; omega)
  case ldMemVx x =>
    have hfits : s.I.toNat + x.toNat ≤ 4095 := by
      by_contra hpast
      exact hno _ _ ⟨by omega, rfl, rfl⟩
    exact Memory.wf_writeBytes hm (by rw [State.regList_length]; omega)
  all_goals simp [writtenParts] at hp

/-- The execute step of any instruction ends in R27, by a fault or by the effect. -/
theorem exec_machineInv {i : Instr} {s t : State} (hs : FetchedInv s) (h : exec i s = .next t) : MachineInv t := by
  obtain ⟨f, k, -, rfl⟩ | ⟨hno, rfl⟩ := exec_next_cases h
  · exact machineInv_of_fieldsBut hs.machineInv (s.raise_fieldsBut f k) (by decide)
  · exact machineInv_iff.2 ⟨effect_I_le hs i, effect_pc_le hs i, effect_stackCellOk hs i, effect_mem_wf hs hno⟩

/-! ### The cycle and the host -/

theorem tick_machineInv {s : State} (h : MachineInv s) : MachineInv s.tick :=
  machineInv_of_fieldsBut h s.tick_fieldsBut (by decide)

/-- A cycle keeps R27, with any random byte, whether it ends at the fetch, at the decode or at the execute step. -/
theorem runCycle_machineInv {rand : Byte} {s t : State} (hs : MachineInv s) (h : runCycle rand s = .next t) : MachineInv t := by
  have hb : MachineInv (s.beginCycle rand) := machineInv_of_fieldsBut hs (s.beginCycle_fieldsBut rand) (by decide)
  obtain ⟨-, rfl⟩ | ⟨w, e, hw, -, rfl⟩ | ⟨w, i, u, hw, -, hu, rfl⟩ := runCycle_cases h
  · exact tick_machineInv (machineInv_of_fieldsBut hb (State.enterFault_fieldsBut _ _ _ _) (by decide))
  · have hf : FetchedInv ((s.beginCycle rand).fetched w) := fetchedInv_fetched hb hw
    exact tick_machineInv (machineInv_of_fieldsBut hf.machineInv (State.raise_fieldsBut _ _ _) (by decide))
  · exact tick_machineInv (exec_machineInv (fetchedInv_fetched hb hw) hu)

/-- Settles O3: a step is a cycle of the state in which a random byte has been drawn. -/
theorem everyCycleKeepsTheInvariant : Obligations.EveryCycleKeepsTheInvariant := by
  intro s t hs h
  have hdrawn : MachineInv s.drawn := machineInv_of_fieldsBut hs s.drawn_fieldsBut (by decide)
  exact runCycle_machineInv hdrawn h

/-- Settles O2. -/
theorem resetMeetsTheInvariant : Obligations.ResetMeetsTheInvariant :=
  machineInv_iff.2 ⟨by decide, by decide, fun k => .inl (State.reset_getStack k), rfl⟩

theorem State.setKey_fieldsBut (s : State) (k : Nibble) (b : Bool) : FieldsBut [.key] s (s.setKey k b) := by
  intro p hp
  cases p
  case key => simp at hp
  all_goals rfl

theorem State.setDrawReady_fieldsBut (s : State) (b : Bool) : FieldsBut [.drawReady] s (s.setDrawReady b) := by
  intro p hp
  cases p
  case drawReady => simp at hp
  all_goals rfl

theorem State.setHalted_fieldsBut (s : State) (b : Bool) : FieldsBut [.halted] s (s.setHalted b) := by
  intro p hp
  cases p
  case halted => simp at hp
  all_goals rfl

theorem State.resetOp_fieldsBut (s : State) : FieldsBut [.randIdx] State.reset s.resetOp := by
  intro p hp
  cases p
  case randIdx => simp at hp
  all_goals rfl

theorem State.loadOp_fieldsBut (s : State) (bytes : List Byte) : FieldsBut [.mem, .randIdx] State.reset (s.loadOp bytes) := by
  intro p hp
  cases p
  case mem | randIdx => simp at hp
  all_goals rfl

theorem resetOp_machineInv (s : State) : MachineInv s.resetOp :=
  machineInv_of_fieldsBut resetMeetsTheInvariant s.resetOp_fieldsBut (by decide)

theorem loadOp_machineInv {bytes : List Byte} (s : State) (h : bytes.length ≤ 3584) : MachineInv (s.loadOp bytes) := by
  obtain ⟨hI, hpc, hst, -⟩ := resetOp_machineInv s
  have hm : (s.loadOp bytes).mem.wf = true := Memory.wf_writeBytes Memory.wf_nil (by simp; omega)
  exact ⟨hI, hpc, hst, hm⟩

/-- Settles O4: RESET and LOAD begin at the reset state, RUN_CYCLE is a cycle, and the others write a flag or nothing. -/
theorem everyHostOperationKeepsTheInvariant : Obligations.EveryHostOperationKeepsTheInvariant := by
  intro op s t reply hs h
  cases op with
  | reset =>
    obtain ⟨rfl, -⟩ : s.resetOp = t ∧ EnvReply.done = reply := by simpa [perform] using h
    exact resetOp_machineInv s
  | load bytes =>
    by_cases hfits : bytes.length ≤ 3584
    · rw [perform_load_of_fits s hfits] at h
      obtain ⟨rfl, -⟩ : s.loadOp bytes = t ∧ EnvReply.done = reply := by simpa using h
      exact loadOp_machineInv s hfits
    · rw [perform_load_of_long s (Nat.lt_of_not_le hfits)] at h
      cases h
  | runCycle rand =>
    obtain ⟨u, hu⟩ := runCycle_answers rand s
    obtain ⟨rfl, -⟩ : u = t ∧ EnvReply.cycle u.beep u.diag = reply := by simpa [perform, hu] using h
    exact runCycle_machineInv hs hu
  | setKey k b =>
    by_cases hk : k ≤ 15
    · rw [perform_setKey_of_le b s hk] at h
      obtain ⟨rfl, -⟩ : s.setKey (BitVec.ofNat 4 k) b = t ∧ EnvReply.done = reply := by simpa using h
      exact machineInv_of_fieldsBut hs (s.setKey_fieldsBut _ b) (by decide)
    · rw [perform_setKey_of_gt b s (Nat.lt_of_not_le hk)] at h
      cases h
  | setDrawReady b =>
    obtain ⟨rfl, -⟩ : s.setDrawReady b = t ∧ EnvReply.done = reply := by simpa [perform] using h
    exact machineInv_of_fieldsBut hs (s.setDrawReady_fieldsBut b) (by decide)
  | setHalted b =>
    obtain ⟨rfl, -⟩ : s.setHalted b = t ∧ EnvReply.done = reply := by simpa [perform] using h
    exact machineInv_of_fieldsBut hs (s.setHalted_fieldsBut b) (by decide)
  | readHalted | readDrawReady | readFramebuffer =>
    simp only [perform, Host.Outcome.next.injEq, Prod.mk.injEq] at h
    exact h.1 ▸ hs

end Sys2Proof.Machine


/-! SUPPORT. The proofs about the cycle: fetch, faults, the tick and pc (40_cycle.md, 60_exceptions.md). -/

namespace Sys2Proof.Machine

open Sys2Proof.Safety Sys2Proof.Statement

/-! ### The three ways a step goes, as equations -/

theorem step_of_noFetch {s : State} (hw : s.mem.readWord s.pc.toNat = none) :
    step s = .next (s.drawn.beginCycle s.nextRand).rejectFetch.tick :=
  runCycle_of_noFetch (s := s.drawn) hw

theorem step_of_illegal {s : State} {w : Word} {e : DecodeReject} (hw : s.mem.readWord s.pc.toNat = some w)
    (hd : decodeWord w = .error e) : step s = .next (afterFetch s w).rejectWord.tick :=
  runCycle_of_illegal (s := s.drawn) hw hd

/-- A step whose instruction answers `u` ends with the tick of `u`. -/
theorem step_of_exec {s u : State} {w : Word} {i : Instr} (hw : s.mem.readWord s.pc.toNat = some w)
    (hd : decodeWord w = .ok i) (hu : exec i (afterFetch s w) = .next u) : step s = .next u.tick := by
  rw [step_of_legal hw hd, hu, thenTick]

/-- Settles O12: the two bytes at pc are the word fetched. -/
theorem stepRunsTheDecodedInstruction : Obligations.StepRunsTheDecodedInstruction := by
  intro s i hpc hd
  exact step_of_legal (Memory.readWord_of_lt s.mem (by omega)) hd

/-- Settles O57: `withFetchWord` places the instruction's word, which is fetched and decodes to it. -/
theorem placedWordRunsNext : Obligations.PlacedWordRunsNext := by
  intro i s hwf
  have hword : s.withFetchWord 16 (encode i).toNat = s.placeWord (encode i) := by
    rw [State.withFetchWord, Nat.mod_eq_of_lt (encode i).isLt, BitVec.ofNat_toNat, BitVec.setWidth_eq]
  rw [hword]
  exact step_of_legal (State.placeWord_readWord (encode i) hwf) (decodeWord_encode i)

/-! ### The tick (R85, R86) -/

theorem toNat_eq_one_iff (b : Byte) : b.toNat = 1 ↔ b = 1 := BitVec.toNat_inj (y := (1 : Byte))

/-- Settles O15. -/
theorem tickCountsBothTimersDown : Obligations.TickCountsBothTimersDown := by
  intro s
  have hbeep : s.tick.beep = true ↔ s.ST.toNat = 1 := by rw [State.tick_beep, decide_eq_true_iff, toNat_eq_one_iff]
  exact ⟨countDown_toNat s.DT, countDown_toNat s.ST, hbeep, s.tick_fieldsBut.unchangedBut⟩

theorem DT_notMem_writtenParts {i : Instr} (h : ∀ x, i ≠ .ldDTVx x) : Part.DT ∉ writtenParts i := by
  cases i
  case ldDTVx x => exact absurd rfl (h x)
  all_goals simp [writtenParts]

theorem ST_notMem_writtenParts {i : Instr} (h : ∀ x, i ≠ .ldSTVx x) : Part.ST ∉ writtenParts i := by
  cases i
  case ldSTVx x => exact absurd rfl (h x)
  all_goals simp [writtenParts]

/-- Every step ends with the tick of a state in which only the instruction that writes a timer has changed it. -/
theorem step_eq_tick {s t : State} (h : step s = .next t) : ∃ u : State, t = u.tick ∧
    ((∀ w x, s.mem.readWord s.pc.toNat = some w → decodeWord w ≠ .ok (.ldDTVx x)) → u.DT = s.DT) ∧
    ((∀ w x, s.mem.readWord s.pc.toNat = some w → decodeWord w ≠ .ok (.ldSTVx x)) → u.ST = s.ST) := by
  obtain ⟨-, rfl⟩ | ⟨w, e, -, -, rfl⟩ | ⟨w, i, f, k, -, -, -, rfl⟩ | ⟨w, i, hw, hd, -, rfl⟩ := step_outcomes h
  · exact ⟨_, rfl, fun _ => rfl, fun _ => rfl⟩
  · exact ⟨_, rfl, fun _ => rfl, fun _ => rfl⟩
  · exact ⟨_, rfl, fun _ => rfl, fun _ => rfl⟩
  · refine ⟨_, rfl, fun hno => ?_, fun hno => ?_⟩
    · exact effect_fieldsBut (afterFetch s w) i .DT (DT_notMem_writtenParts fun x hi => hno w x hw (hi ▸ hd))
    · exact effect_fieldsBut (afterFetch s w) i .ST (ST_notMem_writtenParts fun x hi => hno w x hw (hi ▸ hd))

/-- Settles O16: the tick counts down what the rest of the cycle has left alone. -/
theorem timersCountInEveryCycle : Obligations.TimersCountInEveryCycle := by
  intro s t h
  obtain ⟨u, rfl, hDT, hST⟩ := step_eq_tick h
  obtain ⟨tickDT, tickST, tickBeep, -⟩ := tickCountsBothTimersDown u
  refine ⟨fun hno => ?_, fun hno => ?_⟩
  · rw [tickDT, hDT hno]
  · rw [tickST, tickBeep, hST hno]
    exact ⟨rfl, Iff.rfl⟩

/-- Settles O17: the tick counts down what the instruction has written. -/
theorem writtenTimersTickInTheSameCycle : Obligations.WrittenTimersTickInTheSameCycle := by
  intro s w x hw
  refine ⟨fun hd => ?_, fun hd => ?_⟩
  · have hexec : exec (.ldDTVx x) (afterFetch s w) = .next { afterFetch s w with DT := s.getV x } := rfl
    obtain ⟨tickDT, -⟩ := tickCountsBothTimersDown { afterFetch s w with DT := s.getV x }
    exact ⟨_, step_of_exec hw hd hexec, tickDT⟩
  · have hexec : exec (.ldSTVx x) (afterFetch s w) = .next { afterFetch s w with ST := s.getV x } := rfl
    obtain ⟨-, tickST, tickBeep, -⟩ := tickCountsBothTimersDown { afterFetch s w with ST := s.getV x }
    exact ⟨_, step_of_exec hw hd hexec, tickST, tickBeep⟩

/-! ### Faults (R200 to R207) -/

/-- The post-fetch pc does not wrap: a fetch that succeeds was at 4094 at most. -/
theorem toNat_postFetch {s : State} {w : Word} (hw : s.mem.readWord s.pc.toNat = some w) :
    (s.pc + 2).toNat = s.pc.toNat + 2 := by
  obtain ⟨hle, -⟩ := readWord_some_bound hw
  bv_omega

/-- The record of a fault after the fetch names the instruction's own address and word (R200). -/
theorem raise_tick_diag (s : State) (w : Word) (f : Fault) (k : Nat) :
    ((afterFetch s w).raise f k).tick.diag = some ⟨f, s.pc, w, k⟩ := by
  rw [State.tick_diag, State.raise_diag, afterFetch_pc, afterFetch_ir, BitVec.add_sub_cancel]

/-- What a fault at the fetch writes. -/
theorem rejectFetch_tick_fieldsBut (s : State) : FieldsBut [.halted, .diag, .DT, .ST, .beep, .rand, .randIdx] s
    (s.drawn.beginCycle s.nextRand).rejectFetch.tick :=
  (((s.drawn_fieldsBut.trans (State.beginCycle_fieldsBut _ s.nextRand)).trans (State.enterFault_fieldsBut _ _ _ _)).trans
    (State.tick_fieldsBut _)).mono (by decide)

/-- What a fault after the fetch writes. -/
theorem raise_tick_fieldsBut (s : State) (w : Word) (f : Fault) (k : Nat) :
    FieldsBut [.halted, .diag, .ir, .pc, .DT, .ST, .beep, .rand, .randIdx] s ((afterFetch s w).raise f k).tick :=
  (((afterFetch_fieldsBut s w).trans (State.raise_fieldsBut _ f k)).trans (State.tick_fieldsBut _)).mono (by decide)

/-- Settles O13. -/
theorem fetchPastTheTopFaults : Obligations.FetchPastTheTopFaults := by
  intro s hpc
  exact ⟨_, step_of_noFetch (Memory.readWord_of_ge s.mem (by omega)), rfl, rfl, countDown_toNat s.DT, countDown_toNat s.ST,
    (rejectFetch_tick_fieldsBut s).unchangedBut⟩

theorem decodeWord_error_of_illegal {w : Word} (h : wordLegal w = false) : ∃ e, decodeWord w = .error e := by
  cases hd : decodeWord w with
  | error e => exact ⟨e, rfl⟩
  | ok i =>
    have hlegal := (decodeWord_ok_iff_wordLegal w).1 ⟨i, hd⟩
    rw [h] at hlegal
    cases hlegal

theorem illegal_of_decodeWord_error {w : Word} {e : DecodeReject} (h : decodeWord w = .error e) : wordLegal w = false := by
  rw [Bool.eq_false_iff, Ne, ← decodeWord_ok_iff_wordLegal, h]
  rintro ⟨i, hi⟩
  cases hi

/-- Settles O14. -/
theorem illegalWordHaltsTheMachine : Obligations.IllegalWordHaltsTheMachine := by
  intro s w hw hill
  obtain ⟨e, he⟩ := decodeWord_error_of_illegal hill
  exact ⟨_, step_of_illegal hw he, rfl, rfl, toNat_postFetch hw, raise_tick_diag s w _ _, countDown_toNat s.DT,
    countDown_toNat s.ST, (raise_tick_fieldsBut s w _ _).unchangedBut⟩

/-- A step that returns a record took the fault it names: at the fetch, or after it on an illegal word or by the instruction. -/
theorem step_fault_cases {s t : State} {d : Diag} (h : step s = .next t) (hd : t.diag = some d) :
    (s.mem.readWord s.pc.toNat = none ∧ t = (s.drawn.beginCycle s.nextRand).rejectFetch.tick ∧
      d = ⟨.fetchOutOfBounds, s.pc, s.ir, s.pc.toNat⟩) ∨
    (∃ w f k, s.mem.readWord s.pc.toNat = some w ∧ t = ((afterFetch s w).raise f k).tick ∧ d = ⟨f, s.pc, w, k⟩ ∧
      ((f = .decodeFailure ∧ k = w.toNat ∧ wordLegal w = false) ∨
        ∃ i, decodeWord w = .ok i ∧ TakesFault (afterFetch s w) f k i)) := by
  obtain ⟨hw, rfl⟩ | ⟨w, e, hw, he, rfl⟩ | ⟨w, i, f, k, hw, hi, hf, rfl⟩ | ⟨w, i, -, -, -, rfl⟩ := step_outcomes h
  · exact .inl ⟨hw, rfl, (Option.some.inj hd).symm⟩
  · refine .inr ⟨w, .decodeFailure, w.toNat, hw, rfl, ?_, .inl ⟨rfl, rfl, illegal_of_decodeWord_error he⟩⟩
    exact Option.some.inj (hd.symm.trans (raise_tick_diag s w _ _))
  · exact .inr ⟨w, f, k, hw, rfl, Option.some.inj (hd.symm.trans (raise_tick_diag s w f k)), .inr ⟨i, hi, hf⟩⟩
  · obtain ⟨-, hclean, -⟩ := effect_clean (afterFetch s w) i
    rw [State.tick_diag, hclean] at hd
    cases hd

/-- Settles O19: the three kinds of fault set the flag and leave a record, an instruction's effect does neither. -/
theorem haltedIsSetExactlyByFaults : Obligations.HaltedIsSetExactlyByFaults := by
  intro s t h
  obtain ⟨-, rfl⟩ | ⟨w, e, -, -, rfl⟩ | ⟨w, i, f, k, -, -, -, rfl⟩ | ⟨w, i, -, -, -, rfl⟩ := step_outcomes h
  · exact ⟨fun _ => rfl, fun hnone => nomatch hnone⟩
  · exact ⟨fun _ => rfl, fun hnone => nomatch hnone⟩
  · exact ⟨fun _ => rfl, fun hnone => nomatch hnone⟩
  · obtain ⟨hhalted, hdiag, -⟩ := effect_clean (afterFetch s w) i
    exact ⟨fun hsome => absurd hdiag hsome, fun _ => hhalted⟩

theorem not_takesFault_fetch {s : State} {k : Nat} {i : Instr} : ¬TakesFault s .fetchOutOfBounds k i := by
  cases i <;> simp [TakesFault]

/-- Settles O20. -/
theorem faultsArePrecise : Obligations.FaultsArePrecise := by
  intro s t d h hd
  obtain ⟨-, rfl, rfl⟩ | ⟨w, f, k, hw, rfl, rfl, hfault⟩ := step_fault_cases h hd
  · exact ⟨rfl, rfl, countDown_toNat s.DT, countDown_toNat s.ST, fun _ => ⟨rfl, rfl⟩, fun hne => absurd rfl hne,
      ((rejectFetch_tick_fieldsBut s).mono (by decide)).unchangedBut⟩
  · refine ⟨rfl, rfl, countDown_toNat s.DT, countDown_toNat s.ST, fun hf => ?_, fun _ => ⟨toNat_postFetch hw, hw⟩,
      (raise_tick_fieldsBut s w f k).unchangedBut⟩
    obtain rfl : f = .fetchOutOfBounds := hf
    obtain ⟨hne, -⟩ | ⟨i, -, hi⟩ := hfault
    · cases hne
    · exact absurd hi not_takesFault_fetch

/-- Settles O21: the fault of an illegal word, of the fetch, or of an instruction that can take one. -/
theorem eachFaultHasItsCondition : Obligations.EachFaultHasItsCondition := by
  intro s t d h hd
  obtain ⟨hw, rfl, rfl⟩ | ⟨w, f, k, hw, rfl, rfl, ⟨rfl, rfl, hill⟩ | ⟨i, hi, hf⟩⟩ := step_fault_cases h hd
  · exact ⟨readWord_none_bound hw, rfl⟩
  · exact ⟨w, hw, hill, rfl⟩
  cases i
  case ret =>
    obtain ⟨hsp, rfl, rfl⟩ := hf
    exact ⟨w, hw, hi, hsp, rfl⟩
  case call nnn =>
    obtain ⟨hsp, rfl, rfl⟩ := hf
    exact ⟨w, nnn, hw, hi, BitVec.eq_of_toNat_eq hsp, rfl⟩
  case drw x y n =>
    obtain ⟨hn, hpast, rfl, rfl⟩ := hf
    exact ⟨w, _, n.toNat, hw, hi, rfl, hn, hpast, rfl⟩
  case ldB x =>
    obtain ⟨hpast, rfl, rfl⟩ := hf
    exact ⟨w, _, 3, hw, hi, rfl, by omega, hpast, rfl⟩
  case ldMemVx x | ldVxMem x =>
    obtain ⟨hpast, rfl, rfl⟩ := hf
    exact ⟨w, _, x.toNat + 1, hw, hi, rfl, by omega, hpast, rfl⟩
  case skp x =>
    obtain ⟨hkey, rfl, rfl⟩ := hf
    exact ⟨w, x, hw, .inl hi, hkey, rfl⟩
  case sknp x =>
    obtain ⟨hkey, rfl, rfl⟩ := hf
    exact ⟨w, x, hw, .inr hi, hkey, rfl⟩
  all_goals exact hf.elim

/-! ### pc after a cycle (R84) -/

theorem firstHeldKey_isSome_iff (s : State) : s.firstHeldKey.isSome = true ↔ ∃ k, k < 16 ∧ s.keyHeld k = true := by
  rw [← not_iff_not, Option.isSome_iff_ne_none, not_not, State.firstHeldKey_eq_none]
  simp

/-- The table of R84 in the state after the fetch, where pc is the post-fetch pc. -/
theorem effect_pc (u : State) (i : Instr) : (effect u i).pc = pcAfter u u.pc i := by
  cases i
  case seImm | sneImm | seReg | sneReg | skp | sknp => simp [effect, pcAfter]
  case ldVxK x =>
    cases hk : u.firstHeldKey with
    | none =>
      have hno : ¬∃ k, k < 16 ∧ u.keyHeld k = true := by simp [← firstHeldKey_isSome_iff, hk]
      simp only [effect, hk, pcAfter, if_neg hno, State.jumpTo_pc]
    | some k =>
      have hyes : ∃ k, k < 16 ∧ u.keyHeld k = true := by simp [← firstHeldKey_isSome_iff, hk]
      simp only [effect, hk, pcAfter, if_pos hyes, State.setV_pc]
  case ret | jp | call | jpV0 => rfl
  all_goals exact effect_fieldsBut u _ .pc (by simp [writtenParts])

/-- The table of R84 reads nothing that the fetch writes. -/
theorem pcAfter_afterFetch (s : State) (w p : Word) (i : Instr) : pcAfter (afterFetch s w) p i = pcAfter s p i := by
  cases i <;> rfl

/-- Settles O22. -/
theorem pcAfterACycle : Obligations.PcAfterACycle := by
  intro s t w i hw hd h
  obtain ⟨f, k, -, he⟩ | ⟨-, he⟩ := exec_cases i (afterFetch s w)
  · obtain rfl : ((afterFetch s w).raise f k).tick = t := by simpa [step_of_exec hw hd he] using h
    exact ⟨fun hnone => (nomatch hnone), fun _ => rfl⟩
  · obtain rfl : (effect (afterFetch s w) i).tick = t := by simpa [step_of_exec hw hd he] using h
    obtain ⟨-, hdiag, -⟩ := effect_clean (afterFetch s w) i
    refine ⟨fun _ => ?_, fun hsome => absurd hdiag hsome⟩
    rw [State.tick_pc, effect_pc, afterFetch_pc, pcAfter_afterFetch]

/-! ### Parked (R89) -/

theorem parked_iff {s : State} :
    parked s = true ↔ ∃ w, s.mem.readWord s.pc.toNat = some w ∧ decodeWord w = .ok (.jp (s.pc.setWidth 12)) := by
  rw [parked]
  split
  · next w hw => simp [hw]
  · next hw => simp [hw]

/-- The address of a fetched word has 12 bits. -/
theorem addrOf_setWidth {s : State} {w : Word} (hw : s.mem.readWord s.pc.toNat = some w) : addrOf (s.pc.setWidth 12) = s.pc := by
  obtain ⟨hle, -⟩ := readWord_some_bound hw
  apply BitVec.eq_of_toNat_eq
  rw [addrOf_toNat, BitVec.toNat_setWidth]
  exact Nat.mod_eq_of_lt (by omega)

/-- Settles O56: the step jumps back to the same pc, where memory holds the same word. -/
theorem parkedMachineStaysParked : Obligations.ParkedMachineStaysParked := by
  intro s h
  obtain ⟨w, hw, hd⟩ := parked_iff.1 h
  have hexec : exec (.jp (s.pc.setWidth 12)) (afterFetch s w) = .next ((afterFetch s w).jumpTo s.pc) :=
    congrArg (fun a => Host.Outcome.next ((afterFetch s w).jumpTo a)) (addrOf_setWidth hw)
  have hframe : FieldsBut (.pc :: [.DT, .ST, .ir, .beep, .diag, .rand, .randIdx]) s ((afterFetch s w).jumpTo s.pc).tick :=
    (((afterFetch_fieldsBut s w).trans (State.jumpTo_fieldsBut _ s.pc)).trans (State.tick_fieldsBut _)).mono (by decide)
  refine ⟨_, step_of_exec hw hd hexec, parked_iff.2 ⟨w, hw, hd⟩, rfl, fun p hp => ?_⟩
  by_cases hpc : p = .pc
  · subst hpc
    rfl
  · exact (hframe p (List.not_mem_cons_of_ne_of_not_mem hpc hp)).same

end Sys2Proof.Machine


/-! SUPPORT. The proofs of who writes what (10_state.md): each part's writers, VF as a flag, and who reads the random byte. -/

namespace Sys2Proof.Machine

open Sys2Proof.Safety Sys2Proof.Statement

/-! ### The writers of each part, read off `writtenParts` -/

theorem mem_notMem_writtenParts {i : Instr} (h : ∀ x, i ≠ .ldB x ∧ i ≠ .ldMemVx x) : Part.mem ∉ writtenParts i := by
  cases i
  case ldB x => exact absurd rfl (h x).1
  case ldMemVx x => exact absurd rfl (h x).2
  all_goals simp [writtenParts]

theorem FB_notMem_writtenParts {i : Instr} (hcls : i ≠ .cls) (hdrw : ∀ x y n, i ≠ .drw x y n) : Part.FB ∉ writtenParts i := by
  cases i
  case cls => exact absurd rfl hcls
  case drw x y n => exact absurd rfl (hdrw x y n)
  all_goals simp [writtenParts]

theorem drawReady_notMem_writtenParts {i : Instr} (h : ∀ x y n, i ≠ .drw x y n) : Part.drawReady ∉ writtenParts i := by
  cases i
  case drw x y n => exact absurd rfl (h x y n)
  all_goals simp [writtenParts]

theorem stack_notMem_writtenParts {i : Instr} (h : ∀ nnn, i ≠ .call nnn) : Part.stack ∉ writtenParts i := by
  cases i
  case call nnn => exact absurd rfl (h nnn)
  all_goals simp [writtenParts]

theorem sp_notMem_writtenParts {i : Instr} (hcall : ∀ nnn, i ≠ .call nnn) (hret : i ≠ .ret) : Part.sp ∉ writtenParts i := by
  cases i
  case call nnn => exact absurd rfl (hcall nnn)
  case ret => exact absurd rfl hret
  all_goals simp [writtenParts]

theorem I_notMem_writtenParts {i : Instr} (h : ∀ nnn x, i ≠ .ldI nnn ∧ i ≠ .addI x ∧ i ≠ .ldF x) : Part.I ∉ writtenParts i := by
  cases i
  case ldI nnn => exact absurd rfl (h nnn 0).1
  case addI x => exact absurd rfl (h 0 x).2.1
  case ldF x => exact absurd rfl (h 0 x).2.2
  all_goals simp [writtenParts]

theorem pc_notMem_writtenParts {i : Instr} (h : writesPc i = false) : Part.pc ∉ writtenParts i := by
  cases i
  case ret | jp | call | jpV0 | seImm | sneImm | seReg | sneReg | skp | sknp | ldVxK => cases h
  all_goals simp [writtenParts]

/-- The key table, the fetched word, the inputs and the beep are no instruction's. -/
theorem cycle_parts_notMem_writtenParts {p : Part} (hp : p ∈ [Part.key, .ir, .rand, .randIdx, .beep]) (i : Instr) :
    p ∉ .halted :: .diag :: writtenParts i := by
  simp only [List.mem_cons, List.not_mem_nil, or_false] at hp
  obtain rfl | rfl | rfl | rfl | rfl := hp <;> cases i <;> simp [writtenParts]

/-- An execute step writes its instruction's parts, or `halted` and the record. -/
theorem exec_unchangedBut {i : Instr} {s t : State} (h : exec i s = .next t) :
    UnchangedBut (.halted :: .diag :: writtenParts i) s t := by
  obtain ⟨f, k, -, rfl⟩ | ⟨-, rfl⟩ := exec_next_cases h
  · exact ((s.raise_fieldsBut f k).mono (by simp)).unchangedBut
  · exact ((effect_fieldsBut s i).mono (by simp)).unchangedBut

/-- A part that is not an instruction's, and no fault's, reads the same after it. -/
theorem exec_same {i : Instr} {s t : State} {p : Part} (h : exec i s = .next t) (hp : p ∉ writtenParts i)
    (hfault : p ≠ .halted ∧ p ≠ .diag) : Part.same s t p :=
  exec_unchangedBut h p (List.not_mem_cons_of_ne_of_not_mem hfault.1 (List.not_mem_cons_of_ne_of_not_mem hfault.2 hp))

/-! ### The registers an instruction writes -/

theorem State.setV_setV_getV_ne (s : State) {x y r : Nibble} (v w : Byte) (hx : r ≠ x) (hy : r ≠ y) :
    ((s.setV x v).setV y w).getV r = s.getV r := by
  rw [State.setV_getV_ne _ w hy, State.setV_getV_ne s v hx]

theorem effect_getV_of_not_writesRegister {s : State} {i : Instr} {r : Nibble} (h : ¬writesRegister r i) :
    (effect s i).getV r = s.getV r := by
  cases i
  case ldImm | addImm | ldReg | orReg | andReg | xorReg | rnd | ldVxDT => exact State.setV_getV_ne s _ h
  case addReg | subReg | shr | subn | shl =>
    obtain ⟨hx, hVF⟩ := not_or.1 h
    exact State.setV_setV_getV_ne s _ _ hVF hx
  case drw x y n => exact State.setV_getV_ne _ _ h
  case ldVxMem x =>
    have hlt : x.toNat < 16 := x.isLt
    have hr : ¬r.toNat < x.toNat + 1 := fun hr => h (Nat.le_of_lt_succ hr)
    exact (State.loadRegs_getV s (by omega) r).trans (if_neg hr)
  case ldVxK x =>
    simp only [effect]
    split
    · rfl
    · exact State.setV_getV_ne s _ h
  all_goals exact State.getV_of_V (effect_fieldsBut s _ .V (by simp [writtenParts])) r

theorem exec_getV_of_not_writesRegister {i : Instr} {s t : State} {r : Nibble} (h : exec i s = .next t)
    (hr : ¬writesRegister r i) : t.getV r = s.getV r := by
  obtain ⟨f, k, -, rfl⟩ | ⟨-, rfl⟩ := exec_next_cases h
  · rfl
  · exact effect_getV_of_not_writesRegister hr

/-! ### What is left of O23: `halted` and the record, `stack[0]`, `draw_ready` -/

theorem exec_halted_diag {i : Instr} {s t : State} (h : exec i s = .next t) :
    (Part.same s t .halted ∧ Part.same s t .diag) ∨ ∃ d, t = { s with halted := true, diag := some d } := by
  obtain ⟨f, k, -, rfl⟩ | ⟨-, rfl⟩ := exec_next_cases h
  · exact .inr ⟨_, rfl⟩
  · obtain ⟨hhalted, hdiag, -⟩ := effect_clean s i
    exact .inl ⟨hhalted, hdiag⟩

/-- Below depth 15 the cell that 2nnn writes is not cell 0. -/
theorem exec_getStack_zero {i : Instr} {s t : State} (h : exec i s = .next t) : t.getStack 0 = s.getStack 0 := by
  by_cases hcall : ∀ nnn, i ≠ .call nnn
  · exact exec_same h (stack_notMem_writtenParts hcall) (by decide) 0
  · obtain ⟨nnn, rfl⟩ := not_forall_not.1 hcall
    obtain ⟨f, k, -, rfl⟩ | ⟨hno, rfl⟩ := exec_next_cases h
    · rfl
    · have hlt : s.sp.toNat < 16 := s.sp.isLt
      have hsp : s.sp.toNat ≠ 15 := fun hfull => hno _ _ ⟨hfull, rfl, rfl⟩
      have hcell : (0 : Nibble) ≠ s.sp + 1 := by bv_omega
      simp only [effect, State.jumpTo_getStack, State.setStack_getStack, if_neg hcell]
      rfl

theorem exec_drawReady {i : Instr} {s t : State} (h : exec i s = .next t) (hs : s.drawReady = true) : t.drawReady = true := by
  by_cases hdrw : ∀ x y n, i ≠ .drw x y n
  · exact (exec_same h (drawReady_notMem_writtenParts hdrw) (by decide)).trans hs
  · push Not at hdrw
    obtain ⟨x, y, n, rfl⟩ := hdrw
    obtain ⟨f, k, -, rfl⟩ | ⟨-, rfl⟩ := exec_next_cases h
    · exact hs
    · rfl

/-- Settles O23: the frame of each instruction, and the three parts that a frame does not describe. -/
theorem eachPartHasOnlyItsWriters : Obligations.EachPartHasOnlyItsWriters := by
  intro i s t h
  have cycleParts (p : Part) (hp : p ∈ [Part.key, .ir, .rand, .randIdx, .beep]) : Part.same s t p :=
    exec_unchangedBut h p (cycle_parts_notMem_writtenParts hp i)
  exact ⟨fun r hr => exec_getV_of_not_writesRegister h hr, fun hpc => exec_same h (pc_notMem_writtenParts hpc) (by decide),
    exec_halted_diag h, cycleParts .rand (by simp), cycleParts .randIdx (by simp), cycleParts .beep (by simp),
    cycleParts .key (by simp), cycleParts .ir (by simp), exec_getStack_zero h, exec_drawReady h,
    fun hm => exec_same h (mem_notMem_writtenParts hm) (by decide),
    fun hcls hdrw => exec_same h (FB_notMem_writtenParts hcls hdrw) (by decide),
    fun hdrw => exec_same h (drawReady_notMem_writtenParts hdrw) (by decide),
    fun hcall => ⟨exec_same h (stack_notMem_writtenParts hcall) (by decide),
      fun hret => exec_same h (sp_notMem_writtenParts hcall hret) (by decide)⟩,
    fun hI => exec_same h (I_notMem_writtenParts hI) (by decide),
    fun hDT => exec_same h (DT_notMem_writtenParts hDT) (by decide),
    fun hST => exec_same h (ST_notMem_writtenParts hST) (by decide)⟩

/-- Outside the table of R11 only the destination can be VF; Fx65 reaches VF with x = 15 alone. -/
theorem not_writesRegister_VF {i : Instr} (hflag : writesFlag i = false) (hdest : destination i ≠ some 15) :
    ¬writesRegister 15 i := by
  cases i
  case ldImm | addImm | ldReg | orReg | andReg | xorReg | rnd | ldVxDT | ldVxK =>
    intro hx
    exact hdest (congrArg some hx.symm)
  case ldVxMem x =>
    intro hx
    have hle : 15 ≤ x.toNat := hx
    have hlt : x.toNat < 16 := x.isLt
    exact hdest (congrArg some (BitVec.eq_of_toNat_eq (show x.toNat = 15 by omega)))
  case addReg | subReg | shr | subn | shl | drw => cases hflag
  all_goals exact id

/-- Settles O24: VF is one of the registers of O23. -/
theorem onlySixInstructionsWriteVFAsAFlag : Obligations.OnlySixInstructionsWriteVFAsAFlag :=
  fun _ _ _ h hflag hdest => exec_getV_of_not_writesRegister h (not_writesRegister_VF hflag hdest)

/-! ### The random byte (R131): replacing it commutes with every instruction but Cxkk -/

theorem takesFault_withRand (s : State) (r : Byte) (f : Fault) (k : Nat) (i : Instr) :
    TakesFault { s with rand := r } f k i ↔ TakesFault s f k i := by
  cases i <;> exact Iff.rfl

theorem State.skipIf_withRand (s : State) (r : Byte) (c : Bool) :
    State.skipIf { s with rand := r } c = { s.skipIf c with rand := r } := by
  cases c <;> rfl

theorem State.loadRegs_withRand (s : State) (r : Byte) (n : Nat) :
    State.loadRegs { s with rand := r } n = { s.loadRegs n with rand := r } := by
  induction n with
  | zero => rfl
  | succ n ih =>
    rw [State.loadRegs_succ, State.loadRegs_succ, ih]
    rfl

theorem effect_withRand (s : State) (r : Byte) {i : Instr} (h : ∀ x kk, i ≠ .rnd x kk) :
    effect { s with rand := r } i = { effect s i with rand := r } := by
  cases i
  case rnd x kk => exact absurd rfl (h x kk)
  case seImm | sneImm | seReg | sneReg | skp | sknp => exact State.skipIf_withRand s r _
  case ldVxMem x => exact State.loadRegs_withRand s r _
  case ldVxK x =>
    have scan : State.firstHeldKey { s with rand := r } = s.firstHeldKey := rfl
    simp only [effect, scan]
    split <;> rfl
  all_goals rfl

/-- Settles O25. -/
theorem onlyRndReadsTheRandomByte : Obligations.OnlyRndReadsTheRandomByte := by
  intro i s t r hi h
  obtain ⟨f, k, hf, rfl⟩ | ⟨hno, rfl⟩ := exec_next_cases h
  · exact exec_of_takesFault ((takesFault_withRand s r f k i).2 hf)
  · rw [exec_of_noFault fun f k hf => hno f k ((takesFault_withRand s r f k i).1 hf), effect_withRand s r hi]

end Sys2Proof.Machine


/-! SUPPORT. The proofs about control transfer (41_flow_and_skip.md) and arithmetic with a flag (42_alu.md). -/

namespace Sys2Proof.Machine

open Sys2Proof.Safety Sys2Proof.Statement

/-! ### Control transfer -/

/-- Settles O26. -/
theorem jumpLoadsPc : Obligations.JumpLoadsPc := fun nnn s =>
  ⟨_, rfl, addrOf_toNat nnn, (s.jumpTo_fieldsBut _).unchangedBut⟩

/-- Settles O27. -/
theorem computedJumpKeepsEightBits : Obligations.ComputedJumpKeepsEightBits := fun nnn s =>
  ⟨_, rfl, jumpV0Target_toNat nnn _, (s.jumpTo_fieldsBut _).unchangedBut⟩

/-- The state after a fault of the execute step: the flag, the record, and nothing else (R207). -/
theorem raise_spec (s : State) (f : Fault) (k : Nat) : (s.raise f k).halted = true ∧
    (s.raise f k).diag = some ⟨f, s.pc - 2, s.ir, k⟩ ∧ UnchangedBut [.halted, .diag] s (s.raise f k) :=
  ⟨rfl, rfl, (s.raise_fieldsBut f k).unchangedBut⟩

theorem toNat_sp_succ {sp : Nibble} (h : sp.toNat < 15) : (sp + 1).toNat = sp.toNat + 1 := by bv_omega

/-- Settles O28: below depth 15 by the effect of 2nnn, at 15 by its fault. -/
theorem callPushesThePostFetchPc : Obligations.CallPushesThePostFetchPc := by
  intro nnn s
  refine ⟨fun hsp => ?_, fun hsp => ?_⟩
  · have hpushed : (effect s (.call nnn)).getStack (s.sp + 1) = s.pc := by simp [effect]
    have hothers : ∀ k, k ≠ s.sp + 1 → (effect s (.call nnn)).getStack k = s.getStack k := by
      intro k hk
      simp only [effect, State.jumpTo_getStack, State.setStack_getStack, if_neg hk]
      rfl
    exact ⟨_, exec_call_of_lt nnn hsp, toNat_sp_succ hsp, hpushed, hothers, addrOf_toNat nnn, effect_unchangedBut s (.call nnn)⟩
  · exact ⟨_, exec_call_of_full nnn hsp, raise_spec s _ _⟩

/-- Settles O29: above depth 0 by the effect of 00EE, at 0 by its fault. -/
theorem returnPopsThePc : Obligations.ReturnPopsThePc := by
  intro s
  refine ⟨fun hsp => ?_, fun hsp => ?_⟩
  · have hne : s.sp ≠ 0 := fun h => by simp [h] at hsp
    have hdec : (s.sp - 1).toNat = s.sp.toNat - 1 := by bv_omega
    exact ⟨_, exec_ret_of_pos hne, rfl, hdec, ((effect_fieldsBut s .ret).mono (by decide)).unchangedBut⟩
  · exact ⟨_, exec_ret_of_zero (BitVec.eq_of_toNat_eq hsp), raise_spec s _ _⟩

/-- Settles O30: the call leaves the post-fetch pc in the cell that the return reads. -/
theorem returnResumesAfterTheCall : Obligations.ReturnResumesAfterTheCall := by
  intro nnn s t u hsp hcall husp hucell
  obtain ⟨t', hcall', htsp, htcell, -⟩ := (callPushesThePostFetchPc nnn s).1 hsp
  obtain rfl : t' = t := by simpa [hcall'] using hcall
  have hdepth : 0 < u.sp.toNat := by rw [husp, htsp]; omega
  obtain ⟨v, hret, hvpc, hvsp, -⟩ := (returnPopsThePc u).1 hdepth
  refine ⟨v, hret, ?_, BitVec.eq_of_toNat_eq ?_⟩
  · rw [hvpc, husp, hucell, htcell]
  · rw [hvsp, husp, htsp, Nat.add_sub_cancel]

/-! ### A flag and then a result (R133): 8xy4 to 8xyE write VF first and V[x] second -/

theorem flagByte_decide (p : Prop) [Decidable p] : flagByte (decide p) = oneIf p := by
  by_cases h : p <;> simp [flagByte, oneIf, h]

theorem flagByte_not_decide (p : Prop) [Decidable p] : flagByte (!decide p) = oneIf ¬p := by
  rw [← decide_not, flagByte_decide]

/-- The flag stands in VF unless the result overwrites it. -/
theorem flag_then_result_VF (s : State) {x : Nibble} (f v : Byte) (hx : x ≠ 15) : ((s.setV VF f).setV x v).getV 15 = f := by
  rw [State.setV_getV_ne _ v hx.symm, State.setV_getV_same]

/-- No register but VF and the destination, and no other part, is written. -/
theorem flag_then_result_writesOnly (s : State) (x : Nibble) (f v : Byte) :
    (∀ r, r ≠ x → r ≠ 15 → ((s.setV VF f).setV x v).getV r = s.getV r) ∧ UnchangedBut [.V] s ((s.setV VF f).setV x v) :=
  ⟨fun _ hx hVF => s.setV_setV_getV_ne f v hVF hx, (s.setV_setV_fieldsBut VF x f v).unchangedBut⟩

/-- Settles O35: the sum is taken before the flag is written. -/
theorem addSetsTheCarry : Obligations.AddSetsTheCarry := by
  intro x y s
  have hexec : exec (.addReg x y) s =
      .next ((s.setV VF (carryFlag (s.getV x) (s.getV y))).setV x (s.getV x + s.getV y)) := rfl
  refine ⟨_, hexec, ?_, fun hx => ?_, flag_then_result_writesOnly s x _ _⟩
  · rw [State.setV_getV_same, BitVec.toNat_add]
  · rw [flag_then_result_VF s _ _ hx, carryFlag, flagByte_decide]

/-- The difference of two bytes, modulo 256. -/
theorem toNat_sub_byte (a b : Byte) : (a - b).toNat = (a.toNat + 256 - b.toNat) % 256 := by
  have hlt : b.toNat < 256 := b.isLt
  rw [BitVec.toNat_sub]
  congr 1
  omega

/-- Settles O36: both operands are read after the flag is written. -/
theorem subtractSetsNotBorrow : Obligations.SubtractSetsNotBorrow := by
  intro x y s
  have hexec : exec (.subReg x y) s = .next (effect s (.subReg x y)) := rfl
  have hflag : notBorrowFlag (s.getV x) (s.getV y) = oneIf ¬((s.getV y).toNat > (s.getV x).toNat) := flagByte_not_decide _
  simp only [effect, hflag, State.setV_getV] at hexec
  refine ⟨_, hexec, ⟨?_, fun hx => flag_then_result_VF s _ _ hx⟩, flag_then_result_writesOnly s x _ _⟩
  rw [State.setV_getV_same, toNat_sub_byte]

/-- Settles O37: both operands are read after the flag is written. -/
theorem reverseSubtractIsStrict : Obligations.ReverseSubtractIsStrict := by
  intro x y s
  have hexec : exec (.subn x y) s = .next (effect s (.subn x y)) := rfl
  have hflag : greaterFlag (s.getV x) (s.getV y) = oneIf ((s.getV y).toNat > (s.getV x).toNat) := flagByte_decide _
  simp only [effect, hflag, State.setV_getV] at hexec
  refine ⟨_, hexec, ⟨?_, fun hx => flag_then_result_VF s _ _ hx⟩, flag_then_result_writesOnly s x _ _⟩
  rw [State.setV_getV_same, toNat_sub_byte]

theorem lowBitFlag_toNat (v : Byte) : (lowBitFlag v).toNat = v.toNat % 2 := by
  rw [lowBitFlag, flagByte_toNat, BitVec.getLsbD, Nat.toNat_testBit]
  simp

theorem highBitFlag_toNat (v : Byte) : (highBitFlag v).toNat = v.toNat / 128 := by
  have hlt : v.toNat < 256 := v.isLt
  rw [highBitFlag, flagByte_toNat, BitVec.getLsbD, Nat.toNat_testBit]
  exact Nat.mod_eq_of_lt (by omega)

theorem toNat_shiftRight_one (v : Byte) : (v >>> 1).toNat = v.toNat / 2 := by
  rw [BitVec.toNat_ushiftRight, Nat.shiftRight_eq_div_pow]

theorem toNat_shiftLeft_one (v : Byte) : (v <<< 1).toNat = v.toNat * 2 % 256 := by
  rw [BitVec.toNat_shiftLeft, Nat.shiftLeft_eq]

/-- What a shift shifts: V[x], or the flag just written where x is VF. -/
theorem setVF_getV_ne (s : State) {x : Nibble} (f : Byte) (hx : x ≠ 15) : (s.setV VF f).getV x = s.getV x :=
  s.setV_getV_ne f hx

/-- Settles O38: with x = 15 the flag is at most 1, so it is shifted out by 8xy6 and doubled by 8xyE. -/
theorem shiftsMoveOneBit : Obligations.ShiftsMoveOneBit := by
  intro x y s
  have shr : exec (.shr x y) s = .next (effect s (.shr x y)) := rfl
  have shl : exec (.shl x y) s = .next (effect s (.shl x y)) := rfl
  refine ⟨⟨_, shr, fun hx => ⟨?_, ?_⟩, ?_, flag_then_result_writesOnly s x _ _⟩,
    ⟨_, shl, fun hx => ⟨?_, ?_⟩, ?_, flag_then_result_writesOnly s x _ _⟩⟩
  · simp only [effect]
    rw [State.setV_getV_same, setVF_getV_ne s _ hx, toNat_shiftRight_one]
  · simp only [effect]
    rw [flag_then_result_VF s _ _ hx, lowBitFlag_toNat]
  · rintro rfl
    apply BitVec.eq_of_toNat_eq
    simp only [effect]
    rw [State.setV_getV_same, State.setV_getV_same, toNat_shiftRight_one, lowBitFlag_toNat]
    simp
  · simp only [effect]
    rw [State.setV_getV_same, setVF_getV_ne s _ hx, toNat_shiftLeft_one]
  · simp only [effect]
    rw [flag_then_result_VF s _ _ hx, highBitFlag_toNat]
  · rintro rfl
    have hlt : (s.getV 15).toNat < 256 := (s.getV 15).isLt
    simp only [effect]
    rw [State.setV_getV_same, State.setV_getV_same, toNat_shiftLeft_one, highBitFlag_toNat]
    omega

/-- Settles O39: the byte that RUN_CYCLE is given is the one the instruction reads. -/
theorem randomByteIsMasked : Obligations.RandomByteIsMasked := by
  intro x kk s
  have rnd (u : State) : exec (.rnd x kk) u = .next (u.setV x (u.rand &&& kk)) := rfl
  refine ⟨⟨_, rnd s, fun j _ => ?_, s.setV_writesOnly x _⟩, fun w rand hw hd => ?_⟩
  · rw [State.setV_getV_same, BitVec.getLsbD_and]
  · refine ⟨_, by rw [runCycle_of_legal hw hd, rnd, thenTick], ?_⟩
    rw [State.tick_getV, State.setV_getV_same]
    rfl

end Sys2Proof.Machine


/-! SUPPORT. The proofs about memory (43_index_memory.md), the display (44_display.md), keys and timers (45_keys_timers.md), and the
host (60_exceptions.md §7, 70_reset_and_hazards.md). -/

namespace Sys2Proof.Machine

open Sys2Proof.Safety Sys2Proof.Statement

/-! ### Memory -/

/-- Settles O41: each digit is below 10, so it fits in its byte. -/
theorem decimalDigitsAreStored : Obligations.DecimalDigitsAreStored := by
  intro x s hwf hI
  have hlt : (s.getV x).toNat < 256 := (s.getV x).isLt
  have hlen : (bcdDigits (s.getV x)).length = 3 := rfl
  have hbound : s.I.toNat + (bcdDigits (s.getV x)).length ≤ 4096 := by omega
  have digit (k : Nat) (hk : k < 3) : ((effect s (.ldB x)).mem.read (s.I.toNat + k)) = (bcdDigits (s.getV x))[k] :=
    Memory.read_writeBytes_inside hwf hbound hk
  have fits (n : Nat) (hn : n < 256) : (BitVec.ofNat 8 n).toNat = n := Nat.mod_eq_of_lt hn
  refine ⟨_, exec_ldB_of_fits x hI, ?_, ?_, ?_, fun a ha => Memory.read_writeBytes_outside _ _ _ ha,
    effect_unchangedBut s (.ldB x)⟩
  · exact (congrArg BitVec.toNat (digit 0 (by omega))).trans (fits _ (by omega))
  · exact (congrArg BitVec.toNat (digit 1 (by omega))).trans (fits _ (by omega))
  · exact (congrArg BitVec.toNat (digit 2 (by omega))).trans (fits _ (by omega))

/-- Settles O42. -/
theorem registersAreStored : Obligations.RegistersAreStored := by
  intro x s hwf hI
  refine ⟨_, exec_ldMemVx_of_fits x hI, fun r hr => ?_, fun a ha => ?_, effect_unchangedBut s (.ldMemVx x)⟩
  · rw [read_storedRegs hwf hI hr, BitVec.ofNat_toNat, BitVec.setWidth_eq]
  · exact Memory.read_writeBytes_outside _ _ _ (by rw [State.regList_length]; omega)

/-- Settles O43. -/
theorem registersAreLoaded : Obligations.RegistersAreLoaded := by
  intro x s hI
  have hx : x.toNat + 1 ≤ 16 := x.isLt
  refine ⟨_, exec_ldVxMem_of_fits x hI, fun r hr => ?_, fun r hr => ?_, effect_unchangedBut s (.ldVxMem x)⟩
  · rw [State.loadRegs_getV s hx, if_pos (by omega)]
  · rw [State.loadRegs_getV s hx, if_neg (by omega)]

/-- Settles O44: what O43 loads is what O42 stored, at the same addresses. -/
theorem storeThenLoadRestoresRegisters : Obligations.StoreThenLoadRestoresRegisters := by
  intro x s t u hwf hI hstore hmem huI
  obtain ⟨t', hstore', hread, -, hframe⟩ := registersAreStored x s hwf hI
  obtain rfl : t' = t := by simpa [hstore'] using hstore
  have htI : t'.I = s.I := hframe .I (by simp)
  obtain ⟨v, hload, hv, -⟩ := registersAreLoaded x u (by rw [huI, htI]; exact hI)
  exact ⟨v, hload, fun r hr => by rw [hv r hr, hmem, huI, htI, hread r hr]⟩

/-- A footprint that ends past 4095 is its instruction's fault (R203). -/
theorem takesFault_of_footprint {i : Instr} {s : State} {n : Nat} (hi : footprint i = some n) (hn : 0 < n)
    (hpast : 4095 < s.I.toNat + n - 1) : TakesFault s .dataOutOfBounds (s.I.toNat + n - 1) i := by
  cases i
  case drw =>
    cases hi
    exact ⟨hn, hpast, rfl, rfl⟩
  case ldB | ldMemVx | ldVxMem =>
    cases hi
    exact ⟨hpast, rfl, rfl⟩
  all_goals cases hi

/-- Settles O45. -/
theorem footprintPastTheEndFaults : Obligations.FootprintPastTheEndFaults :=
  fun _ _ _ hi hn hpast => exec_of_takesFault (takesFault_of_footprint hi hn hpast)

/-- Settles O46: the two bytes at pc are those of the two registers, so they are the word fetched. -/
theorem storedWordIsFetchedNext : Obligations.StoredWordIsFetchedNext := by
  intro x s t i hwf hI hstore hlo hhi hd
  have hx : x.toNat < 16 := x.isLt
  obtain ⟨t', hstore', hread, -, hframe⟩ := registersAreStored x s hwf hI
  obtain rfl : t' = t := by simpa [hstore'] using hstore
  have hpc : t'.tick.pc = s.pc := hframe .pc (by simp)
  have stored (a : Nat) (ha : s.I.toNat ≤ a) (hax : a ≤ s.I.toNat + x.toNat) :
      t'.tick.mem.read a = s.getV (BitVec.ofNat 4 (a - s.I.toNat)) := by
    have hreg : (BitVec.ofNat 4 (a - s.I.toNat)).toNat = a - s.I.toNat := Nat.mod_eq_of_lt (by omega)
    have hat := hread (BitVec.ofNat 4 (a - s.I.toNat)) (by omega)
    rw [hreg, Nat.add_sub_cancel' ha] at hat
    exact hat
  have hword : t'.tick.mem.readWord t'.tick.pc.toNat = some (s.getV (BitVec.ofNat 4 (s.pc.toNat - s.I.toNat)) ++
      s.getV (BitVec.ofNat 4 (s.pc.toNat + 1 - s.I.toNat))) := by
    rw [hpc, Memory.readWord_of_lt _ (by omega), stored _ hlo (by omega), stored _ (by omega) hhi, wordOfBytes]
  exact step_of_legal hword hd

/-! ### Display -/

/-- Settles O47. -/
theorem clearBlanksTheScreen : Obligations.ClearBlanksTheScreen := fun s =>
  ⟨_, rfl, pixelOf_blankFrame, effect_unchangedBut s .cls⟩

/-- The cells that the statement says a sprite covers are those that the blitter's laws speak of. -/
theorem covers_iff (s : State) (x y n : Nibble) (k : Nat) : Covers s x y n k ↔
    SpriteCovers s.mem s.I.toNat (s.getV x).toNat (s.getV y).toNat n.toNat k := by
  constructor
  · rintro ⟨row, col, hrow, hcol, hbit, hx, hy, hk⟩
    exact ⟨row, hrow, col, hcol, hbit, hx, hy, hk⟩
  · rintro ⟨row, hrow, col, hcol, hbit, hx, hy, hk⟩
    exact ⟨row, col, hrow, hcol, hbit, hx, hy, hk⟩

theorem drawSprite_getV_VF (x y n : Nibble) (s : State) : (drawSprite x y n s).getV 15 = flagByte
    (plotSprite s.mem s.I.toNat n.toNat (s.getV x).toNat (s.getV y).toNat ⟨s.FB, false⟩).collision :=
  State.setV_getV_same _ _ _

/-- A sprite flips the cells it covers. -/
theorem drawSprite_pixel (x y n : Nibble) (s : State) (k : Nat) :
    (drawSprite x y n s).pixel k = true ↔ ¬(s.pixel k = true ↔ Covers s x y n k) := by
  obtain ⟨hpixel, -⟩ := plotSprite_spec s.mem s.I.toNat n.toNat (s.getV x).toNat (s.getV y).toNat ⟨s.FB, false⟩
  rw [covers_iff]
  exact hpixel k

/-- The collision of a sprite is a set cell that it covers. -/
theorem collision_iff (x y n : Nibble) (s : State) :
    (plotSprite s.mem s.I.toNat n.toNat (s.getV x).toNat (s.getV y).toNat ⟨s.FB, false⟩).collision = true ↔
      ∃ k, s.pixel k = true ∧ Covers s x y n k := by
  obtain ⟨-, hcollision⟩ := plotSprite_spec s.mem s.I.toNat n.toNat (s.getV x).toNat (s.getV y).toNat ⟨s.FB, false⟩
  simp only [hcollision, Bool.false_eq_true, false_or, covers_iff]
  exact exists_congr fun k => and_comm

/-- Settles O48. -/
theorem drawXorsTheClippedSprite : Obligations.DrawXorsTheClippedSprite := by
  intro x y n s hfits
  refine ⟨_, exec_drw_of_fits x y n hfits, drawSprite_pixel x y n s, fun hhit => ?_, fun hmiss => ?_, rfl,
    fun r hr => State.setV_getV_ne _ _ hr, effect_unchangedBut s (.drw x y n)⟩
  · rw [drawSprite_getV_VF, (collision_iff x y n s).2 hhit]
    rfl
  · rw [drawSprite_getV_VF, Bool.eq_false_iff.2 (mt (collision_iff x y n s).1 hmiss)]
    rfl

/-- What a sprite covers depends on memory, `I` and the two coordinates alone. -/
theorem covers_congr {s t : State} {x y : Nibble} (n : Nibble) (hmem : ∀ a, t.mem.read a = s.mem.read a) (hI : t.I = s.I)
    (hx : t.getV x = s.getV x) (hy : t.getV y = s.getV y) (k : Nat) : Covers t x y n k ↔ Covers s x y n k := by
  simp only [Covers, hmem, hI, hx, hy]

/-- Settles O49: the second draw flips the same cells back, and collides where the first one set a cell. -/
theorem drawingTwiceRestoresTheScreen : Obligations.DrawingTwiceRestoresTheScreen := by
  intro x y n s t hx hy hfits hdraw
  obtain ⟨t', hdraw', hpixel, -, -, -, hregs, hframe⟩ := drawXorsTheClippedSprite x y n s hfits
  obtain rfl : t' = t := by simpa [hdraw'] using hdraw
  have hI : t'.I = s.I := hframe .I (by simp)
  have hcovers := covers_congr n (hframe .mem (by simp)) hI (hregs x hx) (hregs y hy)
  obtain ⟨u, hagain, hpixel', hhit, hmiss, -⟩ := drawXorsTheClippedSprite x y n t' (by rw [hI]; exact hfits)
  simp only [hcovers] at hpixel' hhit hmiss
  have hset : (∃ k, t'.pixel k = true ∧ Covers s x y n k) ↔ ∃ k, s.pixel k = false ∧ t'.pixel k = true := by
    refine exists_congr fun k => ?_
    rw [hpixel k, ← Bool.not_eq_true]
    tauto
  refine ⟨u, hagain, fun k => ?_, ?_⟩
  · rw [Bool.eq_iff_iff, hpixel' k, hpixel k]
    tauto
  · rw [← hset]
    refine ⟨fun hVF => ?_, hhit⟩
    by_contra hno
    rw [hmiss hno] at hVF
    cases hVF

/-! ### Keys and timers -/

/-- Settles O50: with an index in range each is a skip on the key's flag, and past it both are the same fault. -/
theorem keySkips : Obligations.KeySkips := by
  intro x s
  refine ⟨fun hle => ⟨exec_skip ?_, exec_skip ?_⟩, fun hgt i hi => ⟨_, ?_, raise_spec s _ _⟩⟩
  · exact (congrArg _ (keySkip_of_le true hle)).trans (by simp)
  · exact (congrArg _ (keySkip_of_le false hle)).trans (by simp)
  · obtain rfl | rfl := hi <;> exact congrArg _ (keySkip_of_gt _ hgt)

/-- Settles O51: by what the key scan finds. -/
theorem keyWait : Obligations.KeyWait := by
  intro x s
  refine ⟨fun hnone => ?_, fun k hk hheld hlow => ?_⟩
  · exact ⟨_, exec_ldVxK_of_none (State.firstHeldKey_eq_none.2 hnone), rfl, (s.jumpTo_fieldsBut _).unchangedBut⟩
  · refine ⟨_, exec_ldVxK_of_some (State.firstHeldKey_eq_some.2 ⟨hk, hheld, hlow⟩), ?_, s.setV_writesOnly x _⟩
    rw [State.setV_getV_same]
    exact Nat.mod_eq_of_lt (by omega)

/-- Settles O52. -/
theorem timerAccess : Obligations.TimerAccess := fun x s =>
  ⟨⟨_, rfl, s.setV_getV_same x _, s.setV_writesOnly x _⟩, ⟨_, rfl, rfl, effect_unchangedBut s (.ldDTVx x)⟩,
    ⟨_, rfl, rfl, effect_unchangedBut s (.ldSTVx x)⟩⟩

/-! ### Reset and the host -/

/-- Settles O1. -/
theorem resetStateIsTheTable : Obligations.ResetStateIsTheTable :=
  ⟨State.reset_getV, State.reset_getStack, State.reset_keyHeld, State.reset_pixel, rfl, rfl, rfl, rfl, rfl, rfl, rfl, rfl,
    fun _ => rfl⟩

/-- Settles O53: the bytes are written to the empty memory of a reset machine. -/
theorem loadPlacesTheProgram : Obligations.LoadPlacesTheProgram := by
  intro bytes s
  refine ⟨fun hfits => ⟨_, perform_load_of_fits s hfits, fun k hk => ?_, fun a ha => ?_, (s.loadOp_fieldsBut bytes).unchangedBut⟩,
    fun hlong => perform_load_of_long s hlong⟩
  · exact Memory.read_writeBytes_inside Memory.wf_nil (by simp; omega) hk
  · exact Memory.read_writeBytes_outside _ _ _ ha

/-- Settles O54. -/
theorem hostWritesTouchOneFlag : Obligations.HostWritesTouchOneFlag := by
  intro k b s
  refine ⟨fun hk => ?_, fun hk => perform_setKey_of_gt b s hk, ⟨_, rfl, rfl, (s.setDrawReady_fieldsBut b).unchangedBut⟩,
    ⟨_, rfl, rfl, (s.setHalted_fieldsBut b).unchangedBut⟩⟩
  have hidx : (BitVec.ofNat 4 k).toNat = k := Nat.mod_eq_of_lt (by omega)
  refine ⟨_, perform_setKey_of_le b s hk, ?_, fun j hj => ?_, (s.setKey_fieldsBut _ b).unchangedBut⟩
  · rw [State.setKey_keyHeld, hidx, if_pos rfl]
  · rw [State.setKey_keyHeld, hidx, if_neg hj]

/-- Settles O55. -/
theorem nothingRunsBeforeTheFirstReset : Obligations.NothingRunsBeforeTheFirstReset := by
  refine ⟨rfl, fun _ => rfl, fun op hreset hload => ?_⟩
  cases op
  case reset => exact absurd rfl hreset
  case load bytes => exact absurd rfl (hload bytes)
  all_goals rfl

end Sys2Proof.Machine
